-- ==== Sys2Proof/Word.lean ====
section
/-! DEFINITION. The machine's word types (spec 10_state.md rules R20, R23, R24, R25; 20_memory.md rule R50). -/

namespace Sys2Proof

/-- A memory byte, a general register, a timer or an immediate NN: 8 bits, unsigned (R8, R20, R50). -/
abbrev Byte := BitVec 8

/-- An instruction word, the address register I, the program counter or a stack entry: 16 bits (R6, R70). -/
abbrev Word := BitVec 16

/-- The index of a general register V0 to VF, or of a key 0x0 to 0xF (R20, R27). -/
abbrev Reg := Fin 16

end Sys2Proof
end

