-- ==== Sys2Proof/Config.lean ====
section
/-! DEFINITION. What an implementation fixes (spec 00_scope.md rule R6, the entries marked "parameter") and the free
value of the random source. The other free value, `Sys2Proof.Config.afterFault`, speaks of the whole state and so
stands in Machine/Ops.lean. -/

namespace Sys2Proof

/-- SPRITE_EDGE (R6, R183): what happens to a sprite pixel outside the 64 x 32 display. -/
inductive SpriteEdge where
  /-- Each coordinate is reduced modulo the display dimension. -/
  | wrap
  /-- The pixel is dropped: it neither toggles nor collides. -/
  | clip
  deriving DecidableEq, Repr, Inhabited

/-- SHIFT_SOURCE (R6, R140, R141): which register SHR and SHL read. -/
inductive ShiftSource where
  | vx
  | vy
  deriving DecidableEq, Repr, Inhabited

/-- The parameters of R6 that a model takes as an argument. They are fixed for one machine: no step and no host
operation writes them. They travel in `State.params` (log entry 1), so a statement about every state is a statement
about every value of the parameters. DUMP_FORMAT is the argument of `Machine.dumpText` instead (log entry 7). -/
structure Params where
  spriteEdge  : SpriteEdge
  shiftSource : ShiftSource
  /-- GLYPH_DATA (R36): the 80 bytes Load writes from GLYPH_BASE on, five a glyph. -/
  glyphData   : Vector Byte 80
  deriving DecidableEq, Repr, Inhabited

/-- The two species of program image (70_reset_and_hazards.md rule R253). -/
inductive Species where
  | primary
  | alternate
  deriving DecidableEq, Repr

/-- FREE VALUE (log entry 2): the random byte of `draw_random()` (R142, R238), as a function of how many bytes have
been drawn before. It has no body: nothing is known of any of its values. -/
opaque Config.drawRandom : Nat → Byte

end Sys2Proof
end

