-- ==== Sys2Proof/Machine/Constants.lean ====
section
/-! DEFINITION. The constants of 00_scope.md rule R6 and the default values of its parameters. -/

namespace Sys2Proof.Machine

/-- MEM_SIZE: addresses 0x000 to 0xFFF (R6, R50). -/
abbrev memSize : Nat := 4096

/-- STACK_CAP: "capacity 24" (R6, R25). -/
abbrev stackCap : Nat := 24

/-- FB_BASE: the first byte of the frame buffer (R6, R180). -/
abbrev fbBase : Nat := 0xF00

/-- FB_BYTES: 256 (R6, R180; conflict C2). -/
abbrev fbBytes : Nat := 256

/-- DISP_W: 64 pixels a row (R6). -/
abbrev dispW : Nat := 64

/-- DISP_H: 32 rows (R6). -/
abbrev dispH : Nat := 32

/-- GLYPH_BASE: the first byte of glyph 0 (R6, R36; conflict C1). -/
abbrev glyphBase : Nat := 0x010

/-- GLYPH_BYTES: five bytes a glyph (R6, R36). -/
abbrev glyphBytes : Nat := 5

/-- LOAD_OFFSET of a species (R6, R251, R253). -/
def loadOffset : Species → Nat
  | .primary => 0x200
  | .alternate => 0x600

/-- V[0xF], the flag register VF (R21). -/
abbrev vf : Reg := 15

/-- The default of GLYPH_DATA, the table of 10_state.md rule R36 (the spec's general knowledge: log entry 17). -/
def defaultGlyphData : Vector Byte 80 :=
  #v[0xF0, 0x90, 0x90, 0x90, 0xF0,   0x20, 0x60, 0x20, 0x20, 0x70,
     0xF0, 0x10, 0xF0, 0x80, 0xF0,   0xF0, 0x10, 0xF0, 0x10, 0xF0,
     0x90, 0x90, 0xF0, 0x10, 0x10,   0xF0, 0x80, 0xF0, 0x10, 0xF0,
     0xF0, 0x80, 0xF0, 0x90, 0xF0,   0xF0, 0x10, 0x20, 0x40, 0x40,
     0xF0, 0x90, 0xF0, 0x90, 0xF0,   0xF0, 0x90, 0xF0, 0x10, 0xF0,
     0xF0, 0x90, 0xF0, 0x90, 0x90,   0xE0, 0x90, 0xE0, 0x90, 0xE0,
     0xF0, 0x80, 0x80, 0x80, 0xF0,   0xE0, 0x90, 0x90, 0x90, 0xE0,
     0xF0, 0x80, 0xF0, 0x80, 0xF0,   0xF0, 0x80, 0xF0, 0x80, 0x80]

/-- The parameters at their defaults (R6): Wrap, VX and the glyph table of R36. -/
def defaultParams : Params :=
  { spriteEdge := .wrap, shiftSource := .vx, glyphData := defaultGlyphData }

end Sys2Proof.Machine
end

