-- ==== Sys2Proof/Machine/Flags.lean ====
section
/-! DEFINITION. The results and flags of the ALU group (42_register_alu.md rules R137 to R141, R143). Results are the
exact integer result modulo 256; a flag is written to VF as exactly 0 or 1 (10_state.md rule R32). -/

namespace Sys2Proof.Machine

/-- VF is written "with exactly 0 or 1" (R32). -/
def flagByte (flag : Bool) : Byte := if flag then 1 else 0

/-- `(a + b) mod 256` (R131, R137). -/
def addResult (a b : Byte) : Byte := BitVec.ofNat 8 ((a.toNat + b.toNat) % 256)

/-- The carry of ADD: 1 exactly when `a + b > 255` (R137). -/
def addCarry (a b : Byte) : Bool := decide (a.toNat + b.toNat > 255)

/-- `(a - b) mod 256`, "mod of the integer difference" (R138, R139). -/
def subResult (a b : Byte) : Byte := BitVec.ofInt 8 (((a.toNat : Int) - (b.toNat : Int)) % 256)

/-- NOT borrow of `a - b`: 1 exactly when `a >= b` (R138, R139). -/
def notBorrow (a b : Byte) : Bool := decide (a.toNat ≥ b.toNat)

/-- `src div 2`, a logical shift (R140). -/
def shrResult (src : Byte) : Byte := BitVec.ofNat 8 (src.toNat / 2)

/-- The bit SHR shifts out, `src[0]` (R140). -/
def shrFlag (src : Byte) : Bool := src.getLsbD 0

/-- `(src * 2) mod 256` (R141). -/
def shlResult (src : Byte) : Byte := BitVec.ofNat 8 (src.toNat * 2 % 256)

/-- The bit SHL shifts out, `src[7]` (R141). -/
def shlFlag (src : Byte) : Bool := src.getLsbD 7

end Sys2Proof.Machine
end

