-- ==== Sys2Proof/Syntax.lean ====
section
/-! DEFINITION. The instruction set: one constructor for each of the 34 rows of spec/opcode_table.json
(30_encoding.md rule R73). `x` and `y` are the register fields X and Y, `nn` the immediate byte NN, `nnn` the 12-bit
address NNN zero-extended to a word (R71), `n` the sprite height N. -/

namespace Sys2Proof

/-- The 34 instructions of R73, in the order of the opcode table. -/
inductive Instr where
  /-- `00E0` CLS: clear the display (R181). -/
  | cls
  /-- `00EE` RET: return (R111). -/
  | ret
  /-- `1NNN` JP NNN: jump (R112). -/
  | jp (nnn : Word)
  /-- `2NNN` CALL NNN: call (R113). -/
  | call (nnn : Word)
  /-- `3XNN` SE Vx, NN: skip if equal to the immediate (R114). -/
  | seImm (x : Reg) (nn : Byte)
  /-- `4XNN` SNE Vx, NN: skip if not equal to the immediate (R115). -/
  | sneImm (x : Reg) (nn : Byte)
  /-- `5XY0` SE Vx, Vy: skip if the registers are equal (R116). -/
  | seReg (x y : Reg)
  /-- `6XNN` LD Vx, NN: load the immediate (R130). -/
  | ldImm (x : Reg) (nn : Byte)
  /-- `7XNN` ADD Vx, NN: add the immediate, no flag (R131). -/
  | addImm (x : Reg) (nn : Byte)
  /-- `8XY0` LD Vx, Vy: assign (R133). -/
  | ldReg (x y : Reg)
  /-- `8XY1` OR Vx, Vy (R134). -/
  | orReg (x y : Reg)
  /-- `8XY2` AND Vx, Vy (R135). -/
  | andReg (x y : Reg)
  /-- `8XY3` XOR Vx, Vy (R136). -/
  | xorReg (x y : Reg)
  /-- `8XY4` ADD Vx, Vy: add, carry in VF (R137). -/
  | addReg (x y : Reg)
  /-- `8XY5` SUB Vx, Vy: subtract, NOT borrow in VF (R138). -/
  | subReg (x y : Reg)
  /-- `8XY6` SHR Vx, Vy: shift right by one, old bit 0 in VF (R140). -/
  | shr (x y : Reg)
  /-- `8XY7` SUBN Vx, Vy: reverse subtract, NOT borrow in VF (R139). -/
  | subnReg (x y : Reg)
  /-- `8XYE` SHL Vx, Vy: shift left by one, old bit 7 in VF (R141). -/
  | shl (x y : Reg)
  /-- `9XY0` SNE Vx, Vy: skip if the registers differ (R117). -/
  | sneReg (x y : Reg)
  /-- `ANNN` LD I, NNN: load the address register (R160). -/
  | ldI (nnn : Word)
  /-- `BNNN` JP V0, NNN: jump with offset (R118). -/
  | jpV0 (nnn : Word)
  /-- `CXNN` RND Vx, NN: random byte AND mask (R142). -/
  | rnd (x : Reg) (nn : Byte)
  /-- `DXYN` DRW Vx, Vy, N: draw a sprite (R182). -/
  | drw (x y : Reg) (n : Nat)
  /-- `EX9E` SKP Vx: skip if the key is pressed (R200). -/
  | skp (x : Reg)
  /-- `EXA1` SKNP Vx: skip if the key is not pressed (R201). -/
  | sknp (x : Reg)
  /-- `FX07` LD Vx, DT: read the delay timer (R202). -/
  | ldVxDT (x : Reg)
  /-- `FX0A` LD Vx, K: await a key press (R205). -/
  | ldVxK (x : Reg)
  /-- `FX15` LD DT, Vx: write the delay timer (R203). -/
  | ldDTVx (x : Reg)
  /-- `FX18` LD ST, Vx: write the sound timer (R204). -/
  | ldSTVx (x : Reg)
  /-- `FX1E` ADD I, Vx: add to the address register (R161). -/
  | addI (x : Reg)
  /-- `FX29` LD F, Vx: glyph address (R162). -/
  | ldF (x : Reg)
  /-- `FX33` LD B, Vx: store the decimal digits (R163). -/
  | ldB (x : Reg)
  /-- `FX55` LD [I], Vx: store V0 to Vx (R164). -/
  | storeRegs (x : Reg)
  /-- `FX65` LD Vx, [I]: load V0 to Vx (R165). -/
  | loadRegs (x : Reg)
  deriving DecidableEq, Repr

end Sys2Proof
end

