-- ==== Sys2Proof/WellFormed.lean ====
section
/-! DEFINITION. Which instructions an encoding exists for. Register fields and the immediate byte fit by their types;
an address must fit the 12 bits of NNN and a sprite height the 4 bits of N (30_encoding.md rules R70, R71). -/

namespace Sys2Proof

/-- NNN is "a 12-bit address 0x000..0xFFF" (R71). -/
def addressFits (nnn : Word) : Bool := decide (nnn.toNat < 0x1000)

/-- N is "a 4-bit count 0..15" (R71). -/
def heightFits (n : Nat) : Bool := decide (n < 16)

/-- The instruction has an encoding: every field fits its place in the word. -/
def Instr.wellFormed : Instr → Bool
  | .jp nnn => addressFits nnn
  | .call nnn => addressFits nnn
  | .ldI nnn => addressFits nnn
  | .jpV0 nnn => addressFits nnn
  | .drw _ _ n => heightFits n
  | .cls => true
  | .ret => true
  | .seImm _ _ => true
  | .sneImm _ _ => true
  | .seReg _ _ => true
  | .ldImm _ _ => true
  | .addImm _ _ => true
  | .ldReg _ _ => true
  | .orReg _ _ => true
  | .andReg _ _ => true
  | .xorReg _ _ => true
  | .addReg _ _ => true
  | .subReg _ _ => true
  | .shr _ _ => true
  | .subnReg _ _ => true
  | .shl _ _ => true
  | .sneReg _ _ => true
  | .rnd _ _ => true
  | .skp _ => true
  | .sknp _ => true
  | .ldVxDT _ => true
  | .ldVxK _ => true
  | .ldDTVx _ => true
  | .ldSTVx _ => true
  | .addI _ => true
  | .ldF _ => true
  | .ldB _ => true
  | .storeRegs _ => true
  | .loadRegs _ => true

end Sys2Proof
end

