-- ==== Sys2Proof/Decode.lean ====
section
/-! DEFINITION. Decoding (30_encoding.md rules R70 to R77), total on any bytes, and after it the encoder, written
from the same table. The bit patterns are those of R73 (the spec's general knowledge: log entry 16); decoding is
strict (R74, R75). -/

namespace Sys2Proof

/-- What a run of bytes decodes to (R77): an instruction, or a rejection that says why. -/
inductive Decoded where
  | instr (i : Instr)
  /-- The word matches no row of the opcode map (R74). -/
  | undefined (w : Word)
  /-- Fewer than two bytes are left: every instruction is exactly two bytes long (R76). -/
  | truncated
  deriving DecidableEq, Repr

/-- `w[hi:lo]`, "the field of v from bit hi down to bit lo inclusive, read as an unsigned number" (00_scope.md
rule R7). -/
def bits (w : Word) (hi lo : Nat) : Nat := w.toNat / 2 ^ lo % 2 ^ (hi + 1 - lo)

/-- G, the opcode group (R70). -/
def fieldG (w : Word) : Nat := bits w 15 12

/-- X, the first register index (R70). -/
def fieldX (w : Word) : Reg := Fin.ofNat 16 (bits w 11 8)

/-- Y, the second register index (R70). -/
def fieldY (w : Word) : Reg := Fin.ofNat 16 (bits w 7 4)

/-- N, the sprite height or ALU sub-code (R70). -/
def fieldN (w : Word) : Nat := bits w 3 0

/-- NN, the immediate byte (R70). -/
def fieldNN (w : Word) : Byte := BitVec.ofNat 8 (bits w 7 0)

/-- NNN, the address, zero-extended to 16 bits (R70, R71). -/
def fieldNNN (w : Word) : Word := BitVec.ofNat 16 (bits w 11 0)

/-- Group 0 is selected by the whole word (R72). -/
def decodeGroup0 (w : Word) : Decoded :=
  if w = 0x00E0#16 then .instr .cls
  else if w = 0x00EE#16 then .instr .ret
  else .undefined w

/-- Group 8 is selected by N (R72). -/
def decodeGroup8 (w : Word) : Decoded :=
  match fieldN w with
  | 0x0 => .instr (.ldReg (fieldX w) (fieldY w))
  | 0x1 => .instr (.orReg (fieldX w) (fieldY w))
  | 0x2 => .instr (.andReg (fieldX w) (fieldY w))
  | 0x3 => .instr (.xorReg (fieldX w) (fieldY w))
  | 0x4 => .instr (.addReg (fieldX w) (fieldY w))
  | 0x5 => .instr (.subReg (fieldX w) (fieldY w))
  | 0x6 => .instr (.shr (fieldX w) (fieldY w))
  | 0x7 => .instr (.subnReg (fieldX w) (fieldY w))
  | 0xE => .instr (.shl (fieldX w) (fieldY w))
  | _ => .undefined w

/-- Group E is selected by NN (R72). -/
def decodeGroupE (w : Word) : Decoded :=
  if fieldNN w = 0x9E#8 then .instr (.skp (fieldX w))
  else if fieldNN w = 0xA1#8 then .instr (.sknp (fieldX w))
  else .undefined w

/-- Group F is selected by NN (R72). -/
def decodeGroupF (w : Word) : Decoded :=
  if fieldNN w = 0x07#8 then .instr (.ldVxDT (fieldX w))
  else if fieldNN w = 0x0A#8 then .instr (.ldVxK (fieldX w))
  else if fieldNN w = 0x15#8 then .instr (.ldDTVx (fieldX w))
  else if fieldNN w = 0x18#8 then .instr (.ldSTVx (fieldX w))
  else if fieldNN w = 0x1E#8 then .instr (.addI (fieldX w))
  else if fieldNN w = 0x29#8 then .instr (.ldF (fieldX w))
  else if fieldNN w = 0x33#8 then .instr (.ldB (fieldX w))
  else if fieldNN w = 0x55#8 then .instr (.storeRegs (fieldX w))
  else if fieldNN w = 0x65#8 then .instr (.loadRegs (fieldX w))
  else .undefined w

/-- Decoding one word (R72, R73, R74): the group selects, within some groups a sub-code, and every word that matches
no row is undefined. It reads no state but the word (R77). -/
def decode (w : Word) : Decoded :=
  match fieldG w with
  | 0x0 => decodeGroup0 w
  | 0x1 => .instr (.jp (fieldNNN w))
  | 0x2 => .instr (.call (fieldNNN w))
  | 0x3 => .instr (.seImm (fieldX w) (fieldNN w))
  | 0x4 => .instr (.sneImm (fieldX w) (fieldNN w))
  | 0x5 => if fieldN w = 0 then .instr (.seReg (fieldX w) (fieldY w)) else .undefined w
  | 0x6 => .instr (.ldImm (fieldX w) (fieldNN w))
  | 0x7 => .instr (.addImm (fieldX w) (fieldNN w))
  | 0x8 => decodeGroup8 w
  | 0x9 => if fieldN w = 0 then .instr (.sneReg (fieldX w) (fieldY w)) else .undefined w
  | 0xA => .instr (.ldI (fieldNNN w))
  | 0xB => .instr (.jpV0 (fieldNNN w))
  | 0xC => .instr (.rnd (fieldX w) (fieldNN w))
  | 0xD => .instr (.drw (fieldX w) (fieldY w) (fieldN w))
  | 0xE => decodeGroupE w
  | 0xF => decodeGroupF w
  | _ => .undefined w

/-- The word of two bytes in fetch order, "with the first fetched byte as the high byte (big-endian)"
(20_memory.md rule R55). -/
def wordOfBytes (hi lo : Byte) : Word := BitVec.ofNat 16 (hi.toNat * 256 + lo.toNat)

/-- The byte of a word that lies at the lower address (R55). -/
def highByte (w : Word) : Byte := BitVec.ofNat 8 (bits w 15 8)

/-- The byte of a word that lies at the higher address (R55). -/
def lowByte (w : Word) : Byte := BitVec.ofNat 8 (bits w 7 0)

/-- The two bytes of a word, in the order memory holds them (R55). -/
def bytesOfWord (w : Word) : List Byte := [highByte w, lowByte w]

/-- Decoding the first instruction of a run of bytes: two bytes, first one high (R55, R76). -/
def decodeBytes : List Byte → Decoded
  | hi :: lo :: _ => decode (wordOfBytes hi lo)
  | _ => .truncated

/-- A word of the form GNNN. -/
def encodeGNNN (g : Nat) (nnn : Word) : Word := BitVec.ofNat 16 (g * 0x1000 + nnn.toNat % 0x1000)

/-- A word of the form GXNN. -/
def encodeGXNN (g : Nat) (x : Reg) (nn : Byte) : Word := BitVec.ofNat 16 (g * 0x1000 + x.val * 0x100 + nn.toNat)

/-- A word of the form GXYN. -/
def encodeGXYN (g : Nat) (x y : Reg) (n : Nat) : Word :=
  BitVec.ofNat 16 (g * 0x1000 + x.val * 0x100 + y.val * 0x10 + n % 16)

/-- The word of an instruction, row by row from the opcode map (R73). For an instruction that is not well-formed the
field that does not fit is cut to its width. -/
def encode : Instr → Word
  | .cls => 0x00E0#16
  | .ret => 0x00EE#16
  | .jp nnn => encodeGNNN 0x1 nnn
  | .call nnn => encodeGNNN 0x2 nnn
  | .seImm x nn => encodeGXNN 0x3 x nn
  | .sneImm x nn => encodeGXNN 0x4 x nn
  | .seReg x y => encodeGXYN 0x5 x y 0x0
  | .ldImm x nn => encodeGXNN 0x6 x nn
  | .addImm x nn => encodeGXNN 0x7 x nn
  | .ldReg x y => encodeGXYN 0x8 x y 0x0
  | .orReg x y => encodeGXYN 0x8 x y 0x1
  | .andReg x y => encodeGXYN 0x8 x y 0x2
  | .xorReg x y => encodeGXYN 0x8 x y 0x3
  | .addReg x y => encodeGXYN 0x8 x y 0x4
  | .subReg x y => encodeGXYN 0x8 x y 0x5
  | .shr x y => encodeGXYN 0x8 x y 0x6
  | .subnReg x y => encodeGXYN 0x8 x y 0x7
  | .shl x y => encodeGXYN 0x8 x y 0xE
  | .sneReg x y => encodeGXYN 0x9 x y 0x0
  | .ldI nnn => encodeGNNN 0xA nnn
  | .jpV0 nnn => encodeGNNN 0xB nnn
  | .rnd x nn => encodeGXNN 0xC x nn
  | .drw x y n => encodeGXYN 0xD x y n
  | .skp x => encodeGXNN 0xE x 0x9E#8
  | .sknp x => encodeGXNN 0xE x 0xA1#8
  | .ldVxDT x => encodeGXNN 0xF x 0x07#8
  | .ldVxK x => encodeGXNN 0xF x 0x0A#8
  | .ldDTVx x => encodeGXNN 0xF x 0x15#8
  | .ldSTVx x => encodeGXNN 0xF x 0x18#8
  | .addI x => encodeGXNN 0xF x 0x1E#8
  | .ldF x => encodeGXNN 0xF x 0x29#8
  | .ldB x => encodeGXNN 0xF x 0x33#8
  | .storeRegs x => encodeGXNN 0xF x 0x55#8
  | .loadRegs x => encodeGXNN 0xF x 0x65#8

/-- The word of an instruction whose table bits are `w`: bit 0 is the least significant bit of the one 16-bit word,
and bits at or above `nbits` are 0. `none` where `w` has a bit above the word. -/
def tableWord (nbits w : Nat) : Option Word :=
  if w % 2 ^ nbits < 0x10000 then some (BitVec.ofNat 16 (w % 2 ^ nbits)) else none

/-- The instruction the decoder reads from the word numbered as spec/opcode_table.json numbers it, laid out in memory
order (R55). -/
def decodeTableWord (nbits w : Nat) : Option Instr :=
  match tableWord nbits w with
  | none => none
  | some word =>
    match decodeBytes (bytesOfWord word) with
    | .instr i => some i
    | .undefined _ => none
    | .truncated => none

end Sys2Proof
end

