-- ==== Sys2Proof/Machine/State.lean ====
section
/-! DEFINITION. Every piece of state the spec gives the engine (10_state.md), its value at construction (R33), and
the reasons a step can stop. Plain data only. -/

namespace Sys2Proof.Machine

/-- The ten fault reasons of 60_exceptions.md rule R221. -/
inductive FaultReason where
  /-- F_PC_OUT_OF_BOUNDS: a fetch at `a` with `a + 1 > 0xFFF` (R93). -/
  | pcOutOfBounds
  /-- F_UNDEFINED_OPCODE: the word matches no instruction (R74). -/
  | undefinedOpcode
  /-- F_SKIP_OUT_OF_BOUNDS: a skip that would land at 4096 or above (R110). -/
  | skipOutOfBounds
  /-- F_JUMP_OUT_OF_BOUNDS: `NNN + V0 >= 4096` in JP V0 (R118). -/
  | jumpOutOfBounds
  /-- F_RETURN_OUT_OF_BOUNDS: RET pops an address `>= 4096` (R111). -/
  | returnOutOfBounds
  /-- F_STACK_OVERFLOW: CALL with a full stack (R113). -/
  | stackOverflow
  /-- F_STACK_UNDERFLOW: RET with an empty stack (R111). -/
  | stackUnderflow
  /-- F_FLAG_OPERAND: VF named as an operand of a flag-writing ALU operation (R132). -/
  | flagOperand
  /-- F_INVALID_KEY: a key or glyph index `>= 16` (R162, R200, R201). -/
  | invalidKey
  /-- F_MEM_OUT_OF_BOUNDS: an I-relative access outside memory (R161, R163, R164, R165, R182). -/
  | memOutOfBounds
  deriving DecidableEq, Repr, Inhabited

/-- What a fault records besides its reason (R222). -/
structure FaultInfo where
  /-- The fetch address of the instruction that faulted; for F_PC_OUT_OF_BOUNDS the out-of-range pc itself. -/
  addr : Word
  /-- The instruction word; `none` for F_PC_OUT_OF_BOUNDS, where no word was fetched. -/
  word : Option Word
  deriving DecidableEq, Repr, Inhabited

/-- `run_state` (R28). -/
inductive RunState where
  | running
  /-- The key wait of LD Vx, K: the register that will receive the key (R205, R206). -/
  | awaitingKey (x : Reg)
  /-- The terminal state of R223. -/
  | faulted (reason : FaultReason) (info : FaultInfo)
  deriving DecidableEq, Repr, Inhabited

/-- Memory: the bytes that differ from what an unlisted address reads as, by rising address (R30, R50). -/
abbrev Memory := List Host.Cell

/-- What the diagnostic dump reads: "registers, PC, I, timers, and stack contents" (R235). -/
structure Dump where
  regs  : Vector Byte 16
  pc    : Word
  i     : Word
  dt    : Byte
  st    : Byte
  stack : Vector Word 24
  sp    : Nat
  deriving DecidableEq, Repr, Inhabited

/-- The state of the engine (10_state.md). -/
structure State where
  /-- V0 to VF (R20). -/
  regs : Vector Byte 16
  /-- The address register I (R24). -/
  i : Word
  /-- The program counter (R23). -/
  pc : Word
  /-- The call stack S[0..23] (R25). -/
  stack : Vector Word 24
  /-- The stack height SP (R25). -/
  sp : Nat
  /-- The delay timer (R26). -/
  dt : Byte
  /-- The sound timer (R26). -/
  st : Byte
  /-- KEYS, the keyboard snapshot: bit k is key k, 1 means pressed (R27). -/
  keys : BitVec 16
  /-- run_state (R28). -/
  runState : RunState
  /-- The shadow copy of the frame buffer (R29). -/
  shadow : Vector Byte 256
  /-- The 4096 bytes of memory (R30). -/
  mem : Memory
  /-- The MODEL's home of the parameters of R6, fixed for one machine (log entry 1). -/
  params : Params
  /-- The MODEL's own field: how many random bytes have been drawn (log entry 2). -/
  draws : Nat
  /-- The MODEL's own field: the dumps emitted at fault entry (R223), newest first (log entry 6). -/
  dumps : List Dump
  deriving DecidableEq, Repr, Inhabited

/-- Why a step stops the machine without a next state. An instruction that faults does NOT stop here: the engine
enters the state `RunState.faulted` of R223, which is a next state (log entry 3). -/
inductive Fault where
  /-- Raised by `step` alone, on a state that is already faulted: "A faulted engine has no step" (R91, R10). Safe:
  the spec gives no successor state. -/
  | engineFaulted (reason : FaultReason) (info : FaultInfo)
  deriving DecidableEq, Repr

/-- Why an instruction has no meaning. -/
inductive Refusal where
  /-- Raised by an arm of `exec` whose instruction the model does not cover; no arm raises it now. Safe: nothing can
  be proved about an instruction refused. -/
  | notModelled (mnemonic : String)
  deriving DecidableEq, Repr

/-- The engine right after construction, its only reset (R33, 70_reset_and_hazards.md rule R250): everything zero,
Running, no key pressed. The last three fields are the model's own. -/
def State.reset : State :=
  { regs := Vector.replicate 16 0
    i := 0
    pc := 0
    stack := Vector.replicate 24 0
    sp := 0
    dt := 0
    st := 0
    keys := 0
    runState := .running
    shadow := Vector.replicate 256 0
    mem := []
    params := defaultParams
    draws := 0
    dumps := [] }

end Sys2Proof.Machine
end

