-- ==== Sys2Proof/Machine/Memory.lean ====
section
/-! DEFINITION. Memory: one byte read and written, wider transfers built from single bytes (20_memory.md rules R50,
R53, R54), and the canonical form. The bounds rule R53 is checked by each instruction before its first access. -/

namespace Sys2Proof.Machine

/-- What an address that is not listed reads as: the construction value of every byte (10_state.md rule R33). -/
def unlistedByte : Byte := 0

/-- `MemRead(a, 1)` (R54). -/
def Memory.read : Memory → Nat → Byte
  | [], _ => unlistedByte
  | c :: rest, a => if c.1 = a then c.2 else Memory.read rest a

/-- Puts the cell of address `a` into its place in the rising order; a byte equal to the unlisted byte is not listed. -/
def Memory.insert : Memory → Nat → Byte → Memory
  | [], a, b => if b = unlistedByte then [] else [(a, b)]
  | c :: rest, a, b =>
    if c.1 < a then c :: Memory.insert rest a b
    else
      let tail := if c.1 = a then rest else c :: rest
      if b = unlistedByte then tail else (a, b) :: tail

/-- `MemWrite(a, 1, b)` (R54). An address outside memory does not exist; no rule writes one, since the bounds are
checked first (R53), and nothing is written then (log entry 8). -/
def Memory.write (m : Memory) (a : Nat) (b : Byte) : Memory :=
  if a < memSize then m.insert a b else m

/-- Single-byte writes at `a`, `a + 1`, ..., in that order (R54, R57). -/
def Memory.writeBytes : Memory → Nat → List Byte → Memory
  | m, _, [] => m
  | m, a, b :: bs => Memory.writeBytes (m.write a b) (a + 1) bs

/-- The bytes at `a .. a + n - 1`. -/
def Memory.readBytes (m : Memory) (a n : Nat) : List Byte :=
  (List.range n).map fun k => m.read (a + k)

/-- The bytes `a .. a + n - 1` all exist: `a + n <= MEM_SIZE`, "computed without truncation" (R53). -/
def inBounds (a n : Nat) : Bool := decide (a + n ≤ memSize)

/-- Addresses rise strictly, from `lo` on. -/
def Memory.risesFrom : Nat → Memory → Bool
  | _, [] => true
  | lo, c :: rest => decide (lo ≤ c.1) && Memory.risesFrom (c.1 + 1) rest

/-- The canonical form: addresses strictly rising, all inside memory, no cell equal to what an unlisted address
reads as. -/
def Memory.wf (m : Memory) : Bool :=
  m.risesFrom 0 && m.all fun c => decide (c.1 < memSize) && decide (c.2 ≠ unlistedByte)

/-- The canonical memory that reads as `f` at every address. -/
def Memory.ofFunction (f : Nat → Byte) : Memory :=
  Memory.writeBytes [] 0 ((List.range memSize).map f)

end Sys2Proof.Machine
end

