-- ==== Sys2Proof/Machine/Ops.lean ====
section
/-! DEFINITION. The named operations on registers, the stack and the frame buffer, the random draw, fault entry as ONE
shared operation (60_exceptions.md rules R222, R223, R224), and SkipNext (41_control_flow.md rule R110). There is no
return from a fault (R225). -/

namespace Sys2Proof

/-- FREE VALUE (log entry 4): what every field but run_state holds once the engine is faulted. The spec says to
"treat every part of the state other than run_state, its reason and its info as unspecified once faulted" (R224). It
has no body; it may depend on the fault and on the state at the fault. -/
opaque Config.afterFault : Machine.FaultReason → Machine.FaultInfo → Machine.State → Machine.State

namespace Machine

/-- `V[x]` (10_state.md rule R20). -/
def State.v (s : State) (x : Reg) : Byte := s.regs[x]

/-- `V[x] <- b` (R20). -/
def State.setV (s : State) (x : Reg) (b : Byte) : State := { s with regs := s.regs.set x b }

/-- `pc <- target`, for a target that fits 16 bits. -/
def State.setPc (s : State) (target : Nat) : State := { s with pc := BitVec.ofNat 16 target }

/-- `I <- address`, for an address that fits 16 bits (R24). -/
def State.setI (s : State) (address : Nat) : State := { s with i := BitVec.ofNat 16 address }

/-- The stack entry `S[k]` (R25); beyond the 24 entries, where no entry exists and no reachable state looks, 0 (log
entry 9). -/
def State.stackEntry (s : State) (k : Nat) : Word := s.stack[k]?.getD 0

/-- A state in the terminal run state of R223. -/
def State.isFaulted (s : State) : Bool :=
  match s.runState with
  | .running => false
  | .awaitingKey _ => false
  | .faulted _ _ => true

/-- The state the diagnostic dump reads (R235). -/
def State.dumpView (s : State) : Dump :=
  { regs := s.regs, pc := s.pc, i := s.i, dt := s.dt, st := s.st, stack := s.stack, sp := s.sp }

/-- FAULT ENTRY (R223): the dump is emitted, then run_state becomes Faulted with the reason and what R222 records.
Every other field the spec gives the engine is unspecified from then on (R224) and takes a free value; memory stays
in canonical form, holding free bytes. The model's own fields go on. -/
def raiseFault (reason : FaultReason) (info : FaultInfo) (s : State) : State :=
  let free := Config.afterFault reason info s
  { regs := free.regs
    i := free.i
    pc := free.pc
    stack := free.stack
    sp := free.sp
    dt := free.dt
    st := free.st
    keys := free.keys
    runState := .faulted reason info
    shadow := free.shadow
    mem := Memory.ofFunction free.mem.read
    params := s.params
    draws := s.draws
    dumps := s.dumpView :: s.dumps }

/-- The fetch address and the word of the instruction being executed (R222): pc is already past it (R94), and each
instruction is the only one its word decodes to (R77; log entry 5). -/
def executingInfo (i : Instr) (s : State) : FaultInfo :=
  { addr := s.pc - 2, word := some (encode i) }

/-- `raise Fault(reason)` in the execute phase of `i` (00_scope.md rule R9): the engine enters the faulted state. -/
def faultIn (reason : FaultReason) (i : Instr) (s : State) : Host.Outcome State Fault Refusal :=
  .next (raiseFault reason (executingInfo i s) s)

/-- SkipNext (R110): pc moves on by one more instruction width; a target outside memory faults. -/
def skipNext (i : Instr) (s : State) : Host.Outcome State Fault Refusal :=
  let t := s.pc.toNat + 2
  if t ≥ memSize then faultIn .skipOutOfBounds i s else .next (s.setPc t)

/-- SkipNext runs only when the condition holds; a skip whose condition fails changes nothing and cannot fault
(R110). -/
def skipIf (condition : Bool) (i : Instr) (s : State) : Host.Outcome State Fault Refusal :=
  if condition then skipNext i s else .next s

/-- `draw_random()` (R142, R238): a fresh free byte, and the state with one draw more. -/
def drawRandom (s : State) : Byte × State :=
  (Config.drawRandom s.draws, { s with draws := s.draws + 1 })

/-- The address of the byte that holds pixel `(px, py)` (44_display.md rule R180). -/
def pixelAddress (px py : Nat) : Nat := fbBase + 8 * py + px / 8

/-- The position of pixel `(px, py)` in its byte, counted from bit 0 (R180). -/
def pixelBit (px : Nat) : Nat := 7 - px % 8

/-- `Pixel(px, py)` (R180). -/
def Memory.pixel (m : Memory) (px py : Nat) : Bool := (m.read (pixelAddress px py)).getLsbD (pixelBit px)

/-- `Pixel(px, py) <- Pixel(px, py) XOR 1`, "leaving the other 7 bits of the byte unchanged" (R180, R182). -/
def Memory.togglePixel (m : Memory) (px py : Nat) : Memory :=
  m.write (pixelAddress px py) (m.read (pixelAddress px py) ^^^ BitVec.twoPow 8 (pixelBit px))

/-- The 256 bytes of the frame buffer, from 0xF00 on (R180, R187). -/
def Memory.frameBuffer (m : Memory) : List Byte := m.readBytes fbBase fbBytes

end Machine

end Sys2Proof
end

