-- ==== Sys2Proof/Machine/Operands.lean ====
section
/-! DEFINITION. The operand forms the instructions share: the shift operand, the flag-operand restriction, the key or
glyph index, the decimal digits, the lowest pressed key, and the position of a sprite pixel. -/

namespace Sys2Proof.Machine

/-- The operand of SHR and SHL: `V[X]` or `V[Y]` by SHIFT_SOURCE (R140, R141). -/
def shiftOperand (x y : Reg) (s : State) : Byte :=
  match s.params.shiftSource with
  | .vx => s.v x
  | .vy => s.v y

/-- FlagCheck fails (R132): X or Y names VF. -/
def namesFlag (x y : Reg) : Bool := decide (x = vf) || decide (y = vf)

/-- The shape of the five flag-writing ALU operations (R132, R137 to R141): FlagCheck first, then the result goes to
`V[X]` and the flag to VF. -/
def aluFlag (i : Instr) (x y : Reg) (result : Byte) (flag : Bool) (s : State) : Host.Outcome State Fault Refusal :=
  if namesFlag x y then faultIn .flagOperand i s
  else .next ((s.setV x result).setV vf (flagByte flag))

/-- A key or glyph index: the value of `V[X]`, valid below 16 and never masked (R162, R200, R201). -/
def validIndex (b : Byte) : Bool := decide (b.toNat < 16)

/-- `KEYS[k]`: key `k` is pressed (R27, R232). -/
def State.keyPressed (s : State) (k : Nat) : Bool := s.keys.getLsbD k

/-- The hundreds, tens and units digits of a byte, in that order (R163). -/
def decimalDigits (b : Byte) : List Byte :=
  [BitVec.ofNat 8 (b.toNat / 100), BitVec.ofNat 8 (b.toNat / 10 % 10), BitVec.ofNat 8 (b.toNat % 10)]

/-- The lowest-indexed pressed key, "scan order 0x0→0xF" (R206). -/
def lowestKey (keys : BitVec 16) : Option Reg := (List.finRange 16).find? fun k => keys.getLsbD k.val

/-- PixelPos (R183): the display pixel of a sprite pixel's unbounded coordinates, or `none` for a pixel that Clip
drops. -/
def pixelPos (edge : SpriteEdge) (u v : Nat) : Option (Nat × Nat) :=
  match edge with
  | .wrap => some (u % dispW, v % dispH)
  | .clip => if u < dispW ∧ v < dispH then some (u, v) else none

end Sys2Proof.Machine
end

