-- ==== Sys2Proof/Machine/Alu.lean ====
section
/-! DEFINITION. Register loads, the immediate add, the ALU group and random (42_register_alu.md). -/

namespace Sys2Proof.Machine

/-- LD Vx, NN (R130). -/
def execLdImm (x : Reg) (nn : Byte) (s : State) : Host.Outcome State Fault Refusal :=
  .next (s.setV x nn)

/-- ADD Vx, NN (R131): VF is not written, not even on overflow, unless X = F. -/
def execAddImm (x : Reg) (nn : Byte) (s : State) : Host.Outcome State Fault Refusal :=
  .next (s.setV x (addResult (s.v x) nn))

/-- LD Vx, Vy (R133). -/
def execLdReg (x y : Reg) (s : State) : Host.Outcome State Fault Refusal :=
  .next (s.setV x (s.v y))

/-- OR Vx, Vy (R134): VF is not cleared. -/
def execOrReg (x y : Reg) (s : State) : Host.Outcome State Fault Refusal :=
  .next (s.setV x (s.v x ||| s.v y))

/-- AND Vx, Vy (R135). -/
def execAndReg (x y : Reg) (s : State) : Host.Outcome State Fault Refusal :=
  .next (s.setV x (s.v x &&& s.v y))

/-- XOR Vx, Vy (R136). -/
def execXorReg (x y : Reg) (s : State) : Host.Outcome State Fault Refusal :=
  .next (s.setV x (s.v x ^^^ s.v y))

/-- ADD Vx, Vy (R137): VF is the carry. -/
def execAddReg (x y : Reg) (s : State) : Host.Outcome State Fault Refusal :=
  aluFlag (.addReg x y) x y (addResult (s.v x) (s.v y)) (addCarry (s.v x) (s.v y)) s

/-- SUB Vx, Vy (R138): `x - y`, VF is NOT borrow. -/
def execSubReg (x y : Reg) (s : State) : Host.Outcome State Fault Refusal :=
  aluFlag (.subReg x y) x y (subResult (s.v x) (s.v y)) (notBorrow (s.v x) (s.v y)) s

/-- SHR Vx, Vy (R140): VF is the bit shifted out. -/
def execShr (x y : Reg) (s : State) : Host.Outcome State Fault Refusal :=
  aluFlag (.shr x y) x y (shrResult (shiftOperand x y s)) (shrFlag (shiftOperand x y s)) s

/-- SUBN Vx, Vy (R139): `y - x`, VF is NOT borrow of `y - x`. -/
def execSubnReg (x y : Reg) (s : State) : Host.Outcome State Fault Refusal :=
  aluFlag (.subnReg x y) x y (subResult (s.v y) (s.v x)) (notBorrow (s.v y) (s.v x)) s

/-- SHL Vx, Vy (R141): VF is the bit shifted out. -/
def execShl (x y : Reg) (s : State) : Host.Outcome State Fault Refusal :=
  aluFlag (.shl x y) x y (shlResult (shiftOperand x y s)) (shlFlag (shiftOperand x y s)) s

/-- RND Vx, NN (R142): a fresh free byte AND the mask. -/
def execRnd (x : Reg) (nn : Byte) (s : State) : Host.Outcome State Fault Refusal :=
  let (r, t) := drawRandom s
  .next (t.setV x (r &&& nn))

end Sys2Proof.Machine
end

