-- ==== Sys2Proof/Machine/Control.lean ====
section
/-! DEFINITION. Control flow (41_control_flow.md). Each meaning is the execute phase: pc is already past the
instruction (40_execution_cycle.md rule R94). -/

namespace Sys2Proof.Machine

/-- RET (R111): underflow is checked before the return address; the popped entry is not cleared. -/
def execRet (s : State) : Host.Outcome State Fault Refusal :=
  if s.sp = 0 then faultIn .stackUnderflow .ret s
  else
    let t := (s.stackEntry (s.sp - 1)).toNat
    if t ≥ memSize then faultIn .returnOutOfBounds .ret s
    else .next ({ s with sp := s.sp - 1 }.setPc t)

/-- JP NNN (R112). -/
def execJp (nnn : Word) (s : State) : Host.Outcome State Fault Refusal :=
  .next (s.setPc nnn.toNat)

/-- CALL NNN (R113): the pc pushed is already past the CALL. -/
def execCall (nnn : Word) (s : State) : Host.Outcome State Fault Refusal :=
  if s.sp ≥ stackCap then faultIn .stackOverflow (.call nnn) s
  else .next ({ s with stack := s.stack.setIfInBounds s.sp s.pc, sp := s.sp + 1 }.setPc nnn.toNat)

/-- SE Vx, NN (R114). -/
def execSeImm (x : Reg) (nn : Byte) (s : State) : Host.Outcome State Fault Refusal :=
  skipIf (decide (s.v x = nn)) (.seImm x nn) s

/-- SNE Vx, NN (R115). -/
def execSneImm (x : Reg) (nn : Byte) (s : State) : Host.Outcome State Fault Refusal :=
  skipIf (decide (s.v x ≠ nn)) (.sneImm x nn) s

/-- SE Vx, Vy (R116). -/
def execSeReg (x y : Reg) (s : State) : Host.Outcome State Fault Refusal :=
  skipIf (decide (s.v x = s.v y)) (.seReg x y) s

/-- SNE Vx, Vy (R117). -/
def execSneReg (x y : Reg) (s : State) : Host.Outcome State Fault Refusal :=
  skipIf (decide (s.v x ≠ s.v y)) (.sneReg x y) s

/-- JP V0, NNN (R118): the sum is not wrapped to 12 bits. -/
def execJpV0 (nnn : Word) (s : State) : Host.Outcome State Fault Refusal :=
  let t := nnn.toNat + (s.v 0).toNat
  if t ≥ memSize then faultIn .jumpOutOfBounds (.jpV0 nnn) s else .next (s.setPc t)

end Sys2Proof.Machine
end

