-- ==== Sys2Proof/Machine/Display.lean ====
section
/-! DEFINITION. Clearing the display and drawing a sprite (44_display.md rules R181 to R183). -/

namespace Sys2Proof.Machine

/-- Memory with the entire frame-buffer region zeroed, byte by byte from 0xF00 on (R181). -/
def clearFrameBuffer (m : Memory) : Memory := m.writeBytes fbBase (List.replicate fbBytes 0)

/-- CLS (R181): the 256 bytes of the frame buffer become 0; VF and the shadow are not touched. -/
def execCls (s : State) : Host.Outcome State Fault Refusal :=
  .next { s with mem := clearFrameBuffer s.mem }

/-- Memory and the collision seen so far, while a sprite is being drawn. -/
abbrev Canvas := Memory × Bool

/-- One set sprite bit at the unbounded coordinates `(u, v)` (R182): if it is on the display, the pixel it lands on is
toggled, and it collides exactly when that pixel was set. -/
def drawPixel (edge : SpriteEdge) (u v : Nat) (q : Canvas) : Canvas :=
  match pixelPos edge u v with
  | some p => (q.1.togglePixel p.1 p.2, q.2 || q.1.pixel p.1 p.2)
  | none => q

/-- The columns `c`, `c + 1`, ... of one sprite row `b` (R182), `count` of them: bit `7 - c` of the byte is
column `c`. -/
def drawColumns (edge : SpriteEdge) (b : Byte) (bx v : Nat) : (count c : Nat) → Canvas → Canvas
  | 0, _, q => q
  | count + 1, c, q =>
    drawColumns edge b bx v count (c + 1) (if b.getLsbD (7 - c) then drawPixel edge (bx + c) v q else q)

/-- The rows `r`, `r + 1`, ... of a sprite at `base` (R182), `count` of them: "row r is read just before it is
drawn". -/
def drawRows (edge : SpriteEdge) (base bx byy : Nat) : (count r : Nat) → Canvas → Canvas
  | 0, _, q => q
  | count + 1, r, q =>
    drawRows edge base bx byy count (r + 1) (drawColumns edge (q.1.read (base + r)) bx (byy + r) 8 0 q)

/-- DRW Vx, Vy, N (R182): both coordinates are read before VF is written, the source range I..I+N is checked before
any pixel changes, and VF, the collision flag, is always written. -/
def execDrw (x y : Reg) (n : Nat) (s : State) : Host.Outcome State Fault Refusal :=
  if s.i.toNat + n ≥ memSize then faultIn .memOutOfBounds (.drw x y n) s
  else
    let q := drawRows s.params.spriteEdge s.i.toNat (s.v x).toNat (s.v y).toNat n 0 (s.mem, false)
    .next ({ s with mem := q.1 }.setV vf (flagByte q.2))

end Sys2Proof.Machine
end

