-- ==== Sys2Proof/Machine/Index.lean ====
section
/-! DEFINITION. The address register I and memory transfers (43_index_memory.md). Every range check is made before the
first byte is written. -/

namespace Sys2Proof.Machine

/-- LD I, NNN (R160). -/
def execLdI (nnn : Word) (s : State) : Host.Outcome State Fault Refusal :=
  .next (s.setI nnn.toNat)

/-- ADD I, Vx (R161): the result must be a memory address; VF is not written. -/
def execAddI (x : Reg) (s : State) : Host.Outcome State Fault Refusal :=
  let t := s.i.toNat + (s.v x).toNat
  if t ≥ memSize then faultIn .memOutOfBounds (.addI x) s else .next (s.setI t)

/-- LD F, Vx (R162): the value is not masked, so 16 or more faults. -/
def execLdF (x : Reg) (s : State) : Host.Outcome State Fault Refusal :=
  if validIndex (s.v x) then .next (s.setI (glyphBase + glyphBytes * (s.v x).toNat))
  else faultIn .invalidKey (.ldF x) s

/-- LD B, Vx (R163): the three decimal digits, hundreds at the lowest address. -/
def execLdB (x : Reg) (s : State) : Host.Outcome State Fault Refusal :=
  if inBounds s.i.toNat 3 then .next { s with mem := s.mem.writeBytes s.i.toNat (decimalDigits (s.v x)) }
  else faultIn .memOutOfBounds (.ldB x) s

/-- LD [I], Vx (R164): V0 to VX, V0 at the lowest address; I is unchanged. -/
def execStoreRegs (x : Reg) (s : State) : Host.Outcome State Fault Refusal :=
  if inBounds s.i.toNat (x.val + 1) then
    .next { s with mem := s.mem.writeBytes s.i.toNat (s.regs.toList.take (x.val + 1)) }
  else faultIn .memOutOfBounds (.storeRegs x) s

/-- LD Vx, [I] (R165): V0 to VX, V0 from the lowest address; I is unchanged. -/
def execLoadRegs (x : Reg) (s : State) : Host.Outcome State Fault Refusal :=
  if inBounds s.i.toNat (x.val + 1) then
    .next { s with regs := Vector.ofFn fun k : Reg => if k ≤ x then s.mem.read (s.i.toNat + k.val) else s.v k }
  else faultIn .memOutOfBounds (.loadRegs x) s

end Sys2Proof.Machine
end

