-- ==== Sys2Proof/Machine/KeysTimers.lean ====
section
/-! DEFINITION. Key tests, the key wait and timer access (45_keys_timers.md). -/

namespace Sys2Proof.Machine

/-- SKP Vx (R200): the key index is checked before the skip. -/
def execSkp (x : Reg) (s : State) : Host.Outcome State Fault Refusal :=
  if validIndex (s.v x) then skipIf (s.keyPressed (s.v x).toNat) (.skp x) s
  else faultIn .invalidKey (.skp x) s

/-- SKNP Vx (R201). -/
def execSknp (x : Reg) (s : State) : Host.Outcome State Fault Refusal :=
  if validIndex (s.v x) then skipIf (!s.keyPressed (s.v x).toNat) (.sknp x) s
  else faultIn .invalidKey (.sknp x) s

/-- LD Vx, DT (R202). -/
def execLdVxDT (x : Reg) (s : State) : Host.Outcome State Fault Refusal :=
  .next (s.setV x s.dt)

/-- LD Vx, K (R205): the register is recorded, and nothing looks at KEYS in this step. -/
def execLdVxK (x : Reg) (s : State) : Host.Outcome State Fault Refusal :=
  .next { s with runState := .awaitingKey x }

/-- LD DT, Vx (R203). -/
def execLdDTVx (x : Reg) (s : State) : Host.Outcome State Fault Refusal :=
  .next { s with dt := s.v x }

/-- LD ST, Vx (R204). -/
def execLdSTVx (x : Reg) (s : State) : Host.Outcome State Fault Refusal :=
  .next { s with st := s.v x }

/-- KeyWaitService (R206), the step taken in AwaitingKey(x): with no key pressed nothing changes; else the
lowest-indexed pressed key goes to `V[x]` and the engine runs again. Nothing is fetched (R92). -/
def keyWaitService (x : Reg) (s : State) : State :=
  match lowestKey s.keys with
  | none => s
  | some k => { s.setV x (BitVec.ofNat 8 k.val) with runState := .running }

end Sys2Proof.Machine
end

