-- ==== Sys2Proof/Machine/Fetch.lean ====
section
/-! DEFINITION. Fetching an instruction (40_execution_cycle.md rules R93, R94) and placing one where the next step
fetches it. -/

namespace Sys2Proof.Machine

/-- The two bytes at pc (R55, R90), or `none` where pc or pc + 1 is outside memory (R93). -/
def fetchBytes (s : State) : Option (List Byte) :=
  if inBounds s.pc.toNat 2 then some (s.mem.readBytes s.pc.toNat 2) else none

/-- The word at pc, first byte high (R55). -/
def fetchedWord (s : State) : Word := wordOfBytes (s.mem.read s.pc.toNat) (s.mem.read (s.pc.toNat + 1))

/-- "PC is advanced by 2 unconditionally on every fetch" (R94). -/
def advancePc (s : State) : State := s.setPc (s.pc.toNat + 2)

/-- F_PC_OUT_OF_BOUNDS (R93, R222): the fetch address is the out-of-range pc, and no word was fetched. -/
def fetchFault (s : State) : State := raiseFault .pcOutOfBounds { addr := s.pc, word := none } s

/-- F_UNDEFINED_OPCODE (R74, R222), raised after the pc's advance (R94). -/
def undefinedFault (s : State) : State :=
  raiseFault .undefinedOpcode { addr := s.pc, word := some (fetchedWord s) } (advancePc s)

/-- Where a word placed for the next fetch goes: at pc if it fits there, else at the primary entry point. -/
def placementPc (s : State) : Nat := if inBounds s.pc.toNat 2 then s.pc.toNat else loadOffset .primary

/-- The state with the given bytes stored where the next step fetches, and the engine running. -/
def placeAtFetch (s : State) (bytes : List Byte) : State :=
  { s with mem := s.mem.writeBytes (placementPc s) bytes, runState := .running }.setPc (placementPc s)

end Sys2Proof.Machine
end

