-- ==== Sys2Proof/Machine/Step.lean ====
section
/-! DEFINITION. One step (40_execution_cycle.md rule R90). -/

namespace Sys2Proof.Machine

/-- Step() of R90: a faulted engine has no step (R91), a waiting one runs the key-wait service and fetches nothing
(R92), a running one fetches, advances pc, decodes and executes. The last arm cannot be reached: a fetch inside memory
gives two bytes. -/
def step (s : State) : Host.Outcome State Fault Refusal :=
  match s.runState with
  | .faulted reason info => .fault (.engineFaulted reason info)
  | .awaitingKey x => .next (keyWaitService x s)
  | .running =>
    match fetchBytes s with
    | none => .next (fetchFault s)
    | some bytes =>
      match decodeBytes bytes with
      | .instr i => exec i (advancePc s)
      | .undefined _ => .next (undefinedFault s)
      | .truncated => .next (fetchFault s)

/-- `s` with the instruction of the opcode table's word `w` where the next step fetches it, and the engine running
(log entry 11). A word that does not fit 16 bits places nothing. -/
def State.withFetchWord (s : State) (nbits w : Nat) : State :=
  match tableWord nbits w with
  | none => s
  | some word => placeAtFetch s (bytesOfWord word)

end Sys2Proof.Machine
end

