-- ==== Sys2Proof/Machine/HostOps.lean ====
section
/-! DEFINITION. The host interface (60_exceptions.md rule R237): each operation is one atomic transaction, run between
steps (40_execution_cycle.md rule R98). The host may issue any sequence of them. -/

namespace Sys2Proof.Machine

/-- Up to `n` steps, stopping at a fault (R96): a state that `step` gives no successor to is the end of the batch. -/
def runSteps : Nat → State → State
  | 0, s => s
  | n + 1, s =>
    match step s with
    | .next t => runSteps n t
    | .fault _ => s
    | .refused _ => s

/-- StepBatch(N, k) (R96): latch KEYS, then N steps. On a faulted engine it changes nothing (R91, vector V8; log entry
12). -/
def stepBatch (n : Nat) (keys : BitVec 16) (s : State) : State :=
  if s.isFaulted then s else runSteps n { s with keys := keys }

/-- A timer one Tick later: "decrements ... by 1 each, floored at 0" (R229). -/
def tickTimer (t : Byte) : Byte := BitVec.ofNat 8 (t.toNat - 1)

/-- Tick (R229), in every run state but Faulted, where it does nothing (R231). -/
def tick (s : State) : State :=
  if s.isFaulted then s else { s with dt := tickTimer s.dt, st := tickTimer s.st }

/-- The redraw query NeedsRedraw (R185): the shadow differs from the frame buffer. -/
def needsRedraw (s : State) : Bool := decide (s.shadow.toList ≠ s.mem.frameBuffer)

/-- The 256 bytes of the frame buffer as the shadow holds them (R29, R186). -/
def frameBufferCopy (m : Memory) : Vector Byte 256 := Vector.ofFn fun k : Fin 256 => m.read (fbBase + k.val)

/-- Commit, the source's `Draw()` (R186): the shadow becomes the frame buffer. -/
def commit (s : State) : State :=
  { s with shadow := frameBufferCopy s.mem }

/-- ReadFrameBuffer (R187). -/
def readFrameBuffer (s : State) : List Byte := s.mem.frameBuffer

/-- SoundOn (R230): "exactly as 'sound timer > 0'". -/
def soundOn (s : State) : Bool := decide (s.st.toNat > 0)

/-- The image fits: Load fails when `S + off >= MEM_SIZE` (R251, R252; conflict C3). -/
def loadFits (image : List Byte) (species : Species) : Bool :=
  decide (image.length + loadOffset species < memSize)

/-- Load(image, species) (R251, R252): the image at the offset, the glyphs at GLYPH_BASE, pc at the offset; nothing at
all for an image that does not fit. The Bool is Success. -/
def load (image : List Byte) (species : Species) (s : State) : State × Bool :=
  if loadFits image species then
    let m := s.mem.writeBytes (loadOffset species) image
    ({ s with mem := m.writeBytes glyphBase s.params.glyphData.toList }.setPc (loadOffset species), true)
  else (s, false)

/-- The text of the diagnostic dump, DUMP_FORMAT being the argument `format` (R235, R6; log entry 7). It changes no
state. -/
def dumpText (format : Dump → String) (s : State) : String := format s.dumpView

/-- The host operations of R237. -/
inductive HostOp where
  | stepBatch (n : Nat) (keys : BitVec 16)
  | tick
  | needsRedraw
  | commit
  | readFrameBuffer
  | soundOn
  | load (image : List Byte) (species : Species)
  | dump
  | status
  deriving DecidableEq, Repr

/-- What an operation returns to the host (R237, column "returns"). The dump's text is its format applied to what the
dump reads (R235). -/
inductive Reply where
  | nothing
  | flag (value : Bool)
  | bytes (content : List Byte)
  | loaded (success : Bool)
  | dumped (content : Dump)
  | status (state : RunState)
  deriving DecidableEq, Repr

/-- One host operation: the state after it and its reply (R237). -/
def hostOp (op : HostOp) (s : State) : State × Reply :=
  match op with
  | .stepBatch n keys => (stepBatch n keys s, .nothing)
  | .tick => (tick s, .nothing)
  | .needsRedraw => (s, .flag (needsRedraw s))
  | .commit => (commit s, .nothing)
  | .readFrameBuffer => (s, .bytes (readFrameBuffer s))
  | .soundOn => (s, .flag (soundOn s))
  | .load image species => ((load image species s).1, .loaded (load image species s).2)
  | .dump => (s, .dumped s.dumpView)
  | .status => (s, .status s.runState)

/-- The state after a sequence of host operations, first one first (R98). -/
def hostOps : List HostOp → State → State
  | [], s => s
  | op :: ops, s => hostOps ops (hostOp op s).1

end Sys2Proof.Machine
end

