-- ==== Sys2Proof/Safety.lean ====
section
/-! DEFINITION. What counts as a good state and a safe run, in the terms the statements use. -/

namespace Sys2Proof.Machine

/-- The invariants "that hold in every reachable state that is not faulted" (10_state.md rule R35) and those of R25:
the stack height, I, pc and every stack entry in their ranges. A faulted state's fields are unspecified (R224). -/
def State.RangesHold (s : State) : Prop :=
  s.isFaulted = false →
    s.sp ≤ 24 ∧ s.i.toNat ≤ 0xFFF ∧ s.pc.toNat ≤ 4096 ∧ ∀ k, (s.stackEntry k).toNat ≤ 4096

/-- The invariant of the model: memory is in canonical form, and the ranges hold unless the engine is faulted. -/
def State.Inv (s : State) : Prop := s.mem.wf = true ∧ s.RangesHold

/-- A state some sequence of host operations leads to from construction (R98, R250). -/
def Reachable (s : State) : Prop := ∃ ops : List HostOp, hostOps ops State.reset = s

/-- A run of `n` steps that never faults. -/
def SafeRun : Nat → State → Prop
  | 0, s => s.isFaulted = false
  | n + 1, s => s.isFaulted = false ∧ ∃ t, step s = .next t ∧ SafeRun n t

/-- The pieces of state an instruction may leave unchanged, besides the general registers. -/
inductive Part where
  | i
  | pc
  | stack
  | dt
  | st
  | keys
  | runState
  | shadow
  | mem
  | draws
  deriving DecidableEq, Repr

/-- One piece of state is the same in both states: for the stack its height and its entries, for memory every byte
read. -/
def Part.same (p : Part) (s t : State) : Prop :=
  match p with
  | .i => t.i = s.i
  | .pc => t.pc = s.pc
  | .stack => t.sp = s.sp ∧ t.stack = s.stack
  | .dt => t.dt = s.dt
  | .st => t.st = s.st
  | .keys => t.keys = s.keys
  | .runState => t.runState = s.runState
  | .shadow => t.shadow = s.shadow
  | .mem => ∀ a, t.mem.read a = s.mem.read a
  | .draws => t.draws = s.draws

/-- The frame of an instruction: from `s` to `t` every register but `dests`, every piece of state but `except`, the
parameters and the emitted dumps are unchanged. -/
def Frame (except : List Part) (dests : List Reg) (s t : State) : Prop :=
  (∀ r : Reg, r ∉ dests → t.v r = s.v r) ∧ (∀ p : Part, p ∉ except → p.same s t) ∧
    t.params = s.params ∧ t.dumps = s.dumps

/-- Every byte of memory outside `lo .. lo + n - 1` reads as before. -/
def SameMemOutside (lo n : Nat) (s t : State) : Prop :=
  ∀ a, a < lo ∨ lo + n ≤ a → t.mem.read a = s.mem.read a

/-- The execute phase of `i` takes the fault `reason`: the engine enters the terminal run state, which records the
fetch address (pc is two past it) and the word (60_exceptions.md rules R222, R223). -/
def FaultsWith (reason : FaultReason) (i : Instr) (s : State) : Prop :=
  ∃ t, exec i s = .next t ∧ t.runState = .faulted reason { addr := s.pc - 2, word := some (encode i) }

/-- The execute phase of a skip instruction with the given condition (41_control_flow.md rule R110): it skips, faults
where the skip would leave memory, and changes nothing at all where the condition fails. -/
def SkipsWhen (condition : Prop) (i : Instr) (s : State) : Prop :=
  (condition → s.pc.toNat + 2 < 4096 →
    ∃ t, exec i s = .next t ∧ t.pc.toNat = s.pc.toNat + 2 ∧ Frame [.pc] [] s t) ∧
  (condition → 4096 ≤ s.pc.toNat + 2 → FaultsWith .skipOutOfBounds i s) ∧
  (¬condition → exec i s = .next s)

/-- The sprite pixel with unbounded coordinates `(u, v)` lands on display pixel `(px, py)` (44_display.md rule R183),
said of each edge policy apart from `pixelPos`. -/
def landsOn (edge : SpriteEdge) (u v px py : Nat) : Bool :=
  match edge with
  | .wrap => decide (u % 64 = px ∧ v % 32 = py)
  | .clip => decide (u = px ∧ v = py)

/-- Some set bit of the sprite row `b`, drawn from column `bx` at row `v`, lands on `(px, py)` (R182). -/
def rowBit (edge : SpriteEdge) (b : Byte) (bx v px py : Nat) : Bool :=
  (List.range 8).any fun c => b.getLsbD (7 - c) && landsOn edge (bx + c) v px py

/-- Some set bit of the sprite `V[x], V[y], n` of state `s`, read from `s`'s memory at I, lands on `(px, py)`
(R182). -/
def spriteBit (s : State) (x y : Reg) (n px py : Nat) : Bool :=
  (List.range n).any fun r =>
    rowBit s.params.spriteEdge (s.mem.read (s.i.toNat + r)) (s.v x).toNat ((s.v y).toNat + r) px py

/-- The instructions that write VF implicitly (10_state.md rule R21). -/
def writesFlag : Instr → Bool
  | .cls => false
  | .ret => false
  | .jp _ => false
  | .call _ => false
  | .seImm _ _ => false
  | .sneImm _ _ => false
  | .seReg _ _ => false
  | .ldImm _ _ => false
  | .addImm _ _ => false
  | .ldReg _ _ => false
  | .orReg _ _ => false
  | .andReg _ _ => false
  | .xorReg _ _ => false
  | .addReg _ _ => true
  | .subReg _ _ => true
  | .shr _ _ => true
  | .subnReg _ _ => true
  | .shl _ _ => true
  | .sneReg _ _ => false
  | .ldI _ => false
  | .jpV0 _ => false
  | .rnd _ _ => false
  | .drw _ _ _ => true
  | .skp _ => false
  | .sknp _ => false
  | .ldVxDT _ => false
  | .ldVxK _ => false
  | .ldDTVx _ => false
  | .ldSTVx _ => false
  | .addI _ => false
  | .ldF _ => false
  | .ldB _ => false
  | .storeRegs _ => false
  | .loadRegs _ => false

/-- The instructions that name VF as their destination in the execute phase (R21). LD Vx, K writes its register in a
later step. -/
def namesFlagAsDestination : Instr → Bool
  | .cls => false
  | .ret => false
  | .jp _ => false
  | .call _ => false
  | .seImm _ _ => false
  | .sneImm _ _ => false
  | .seReg _ _ => false
  | .ldImm x _ => x == 15
  | .addImm x _ => x == 15
  | .ldReg x _ => x == 15
  | .orReg x _ => x == 15
  | .andReg x _ => x == 15
  | .xorReg x _ => x == 15
  | .addReg _ _ => false
  | .subReg _ _ => false
  | .shr _ _ => false
  | .subnReg _ _ => false
  | .shl _ _ => false
  | .sneReg _ _ => false
  | .ldI _ => false
  | .jpV0 _ => false
  | .rnd x _ => x == 15
  | .drw _ _ _ => false
  | .skp _ => false
  | .sknp _ => false
  | .ldVxDT x => x == 15
  | .ldVxK _ => false
  | .ldDTVx _ => false
  | .ldSTVx _ => false
  | .addI _ => false
  | .ldF _ => false
  | .ldB _ => false
  | .storeRegs _ => false
  | .loadRegs x => x == 15

/-- The reasons each instruction's execute phase may raise (60_exceptions.md rule R221, column "raised by"), in the
order it checks them (R226). The fetch raises F_PC_OUT_OF_BOUNDS and decoding F_UNDEFINED_OPCODE before any execute
phase. -/
def faultReasons : Instr → List FaultReason
  | .cls => []
  | .ret => [.stackUnderflow, .returnOutOfBounds]
  | .jp _ => []
  | .call _ => [.stackOverflow]
  | .seImm _ _ => [.skipOutOfBounds]
  | .sneImm _ _ => [.skipOutOfBounds]
  | .seReg _ _ => [.skipOutOfBounds]
  | .ldImm _ _ => []
  | .addImm _ _ => []
  | .ldReg _ _ => []
  | .orReg _ _ => []
  | .andReg _ _ => []
  | .xorReg _ _ => []
  | .addReg _ _ => [.flagOperand]
  | .subReg _ _ => [.flagOperand]
  | .shr _ _ => [.flagOperand]
  | .subnReg _ _ => [.flagOperand]
  | .shl _ _ => [.flagOperand]
  | .sneReg _ _ => [.skipOutOfBounds]
  | .ldI _ => []
  | .jpV0 _ => [.jumpOutOfBounds]
  | .rnd _ _ => []
  | .drw _ _ _ => [.memOutOfBounds]
  | .skp _ => [.invalidKey, .skipOutOfBounds]
  | .sknp _ => [.invalidKey, .skipOutOfBounds]
  | .ldVxDT _ => []
  | .ldVxK _ => []
  | .ldDTVx _ => []
  | .ldSTVx _ => []
  | .addI _ => [.memOutOfBounds]
  | .ldF _ => [.invalidKey]
  | .ldB _ => [.memOutOfBounds]
  | .storeRegs _ => [.memOutOfBounds]
  | .loadRegs _ => [.memOutOfBounds]

end Sys2Proof.Machine
end

