-- ==== Sys2Proof/Certificates/Slice0/Obligations.lean ====
section
/-! DEFINITION. The statements for the provers. Each docstring names the rule of spec/ it formalises; "the spec's
decision D<n>" marks a clause that rests on 92_eei_decisions.md, "log entry <n>" one that rests on the model's own
choice. What a fault records, in every clause that says `FaultsWith` or `.faulted`, is the spec's decision D14, and that
the faulted state is a next state is log entry 3. -/

open Sys2Proof Sys2Proof.Machine

/-- R72, R73, R74: a few words of the opcode map, one or more of each family, written out from the table, and the
byte order of R55 on the source's own example bytes `A2 10`. The bit patterns are the spec's decision D5, and that the
three words at the end are undefined is its decision D6. -/
def Obligations.DecodeReadsSpecWords : Prop :=
  decode 0x00E0#16 = .instr .cls ∧ decode 0x00EE#16 = .instr .ret ∧
  decode 0x1234#16 = .instr (.jp 0x234) ∧ decode 0x5120#16 = .instr (.seReg 1 2) ∧
  decode 0x600A#16 = .instr (.ldImm 0 0x0A) ∧ decode 0x8124#16 = .instr (.addReg 1 2) ∧
  decode 0x812E#16 = .instr (.shl 1 2) ∧ decodeBytes [0xA2#8, 0x10#8] = .instr (.ldI 0x210) ∧
  decode 0xD015#16 = .instr (.drw 0 1 5) ∧ decode 0xE19E#16 = .instr (.skp 1) ∧
  decode 0xF265#16 = .instr (.loadRegs 2) ∧ decode 0x0123#16 = .undefined 0x0123#16 ∧
  decode 0x5121#16 = .undefined 0x5121#16 ∧ decode 0x800F#16 = .undefined 0x800F#16

/-- Decode and encode agree (R72, R77): every well-formed instruction is what its word decodes to. The bit patterns are
the spec's decision D5. -/
def Obligations.DecodeOfEncode : Prop :=
  ∀ i : Instr, i.wellFormed = true → decode (encode i) = .instr i

/-- Each defined word is the word of exactly the instruction it decodes to, and that instruction is well-formed (R72:
"Exactly one row matches any defined word"). That no bit of a word is ignored, so that `5XY1` is not read as `5XY0`, is
the strict decoding of R74 and R75, the spec's decision D6; the bit patterns are its decision D5. -/
def Obligations.EncodeOfDecode : Prop :=
  ∀ (w : Word) (i : Instr), decode w = .instr i → encode i = w ∧ i.wellFormed = true

/-- R74's table: the undefined words, group by group (the spec's decision D6). -/
def Obligations.UndefinedWordsByGroup : Prop :=
  ∀ w : Word, decode w = .undefined w ↔
    (w.toNat / 4096 = 0x0 ∧ w.toNat ≠ 0x00E0 ∧ w.toNat ≠ 0x00EE) ∨
    (w.toNat / 4096 = 0x5 ∧ w.toNat % 16 ≠ 0) ∨
    (w.toNat / 4096 = 0x8 ∧ (w.toNat % 16 = 0xF ∨ (0x8 ≤ w.toNat % 16 ∧ w.toNat % 16 ≤ 0xD))) ∨
    (w.toNat / 4096 = 0x9 ∧ w.toNat % 16 ≠ 0) ∨
    (w.toNat / 4096 = 0xE ∧ w.toNat % 256 ∉ [0x9E, 0xA1]) ∨
    (w.toNat / 4096 = 0xF ∧ w.toNat % 256 ∉ [0x07, 0x0A, 0x15, 0x18, 0x1E, 0x29, 0x33, 0x55, 0x65])

/-- A step runs the decoded instruction (R90, R94, R55): in Running, when the two bytes at pc, first one high, decode
to `i`, the step is the execute phase of `i` on the state whose pc is two further. That an odd pc is as good as an even
one is the spec's decision D16, the bit patterns its decision D5. -/
def Obligations.StepRunsDecodedInstruction : Prop :=
  ∀ (s : State) (w : Word) (i : Instr), s.runState = .running → s.pc.toNat + 2 ≤ 4096 →
    w.toNat = (s.mem.read s.pc.toNat).toNat * 256 + (s.mem.read (s.pc.toNat + 1)).toNat →
    decode w = .instr i → step s = exec i { s with pc := s.pc + 2 }

/-- R74, R222: in Running, a word that matches no instruction faults F_UNDEFINED_OPCODE and records its address and
itself (the spec's decisions D6, D14 and D16). -/
def Obligations.UndefinedWordFaults : Prop :=
  ∀ (s : State) (w : Word), s.runState = .running → s.pc.toNat + 2 ≤ 4096 →
    w.toNat = (s.mem.read s.pc.toNat).toNat * 256 + (s.mem.read (s.pc.toNat + 1)).toNat →
    decode w = .undefined w →
    ∃ t, step s = .next t ∧ t.runState = .faulted .undefinedOpcode { addr := s.pc, word := some w }

/-- R93, R222: a step faults F_PC_OUT_OF_BOUNDS exactly when it fetches at 4095 or above, and records the fetch
address and no word (the spec's decisions D14 and D16). -/
def Obligations.FetchFaultsExactlyOutsideMemory : Prop :=
  ∀ s : State, s.runState = .running →
    (4095 ≤ s.pc.toNat →
      ∃ t, step s = .next t ∧ t.runState = .faulted .pcOutOfBounds { addr := s.pc, word := none }) ∧
    (s.pc.toNat < 4095 → ∀ t info, step s = .next t → t.runState ≠ .faulted .pcOutOfBounds info)

/-- R91: a faulted engine has no step, and no Step request changes it. The first clause is how the model says "no
step" (log entry 3), the second is the batch of R96 on such an engine. -/
def Obligations.FaultedEngineHasNoStep : Prop :=
  ∀ (s : State) (reason : FaultReason) (info : FaultInfo), s.runState = .faulted reason info →
    step s = .fault (.engineFaulted reason info) ∧ ∀ n keys, stepBatch n keys s = s

/-- R92, R206: the step of a waiting engine. With no key pressed nothing changes; with one pressed the lowest goes to
the recorded register, the engine runs again, and pc and everything else stay (the spec's decision D19). -/
def Obligations.KeyWaitTakesLowestKey : Prop :=
  ∀ (s : State) (x : Reg), s.runState = .awaitingKey x →
    (s.keys = 0 → step s = .next s) ∧
    (∀ k : Reg, s.keys.getLsbD k.val = true → (∀ j : Reg, j < k → s.keys.getLsbD j.val = false) →
      ∃ t, step s = .next t ∧ (t.v x).toNat = k.val ∧ t.runState = .running ∧ Frame [.runState] [x] s t)

/-- R96, R97: StepBatch(n, keys) on an engine that is not faulted latches KEYS and then runs n steps, one after the
other, ending at once with a fault; steps add up; a batch of no steps only latches KEYS; and a batch on a waiting engine
with no key pressed changes nothing but the latched KEYS (the spec's decision D19). That a step of a faulted engine is
the outcome `.fault` is log entry 3. -/
def Obligations.BatchesLatchKeysAndAddUp : Prop :=
  (∀ (n : Nat) keys (s : State), hostOp (.stepBatch n keys) s = (stepBatch n keys s, .nothing)) ∧
  (∀ (n : Nat) keys (s : State), s.isFaulted = false → stepBatch n keys s = runSteps n { s with keys := keys }) ∧
  (∀ s : State, runSteps 0 s = s) ∧
  (∀ (n : Nat) (s t : State), step s = .next t → runSteps (n + 1) s = runSteps n t) ∧
  (∀ (n : Nat) (s t : State), step s = .next t → t.isFaulted = true → runSteps (n + 1) s = t) ∧
  (∀ (n : Nat) (s : State) (f : Fault), step s = .fault f → runSteps n s = s) ∧
  (∀ (s : State) keys, s.isFaulted = false → stepBatch 0 keys s = { s with keys := keys }) ∧
  (∀ (m n : Nat) (s : State), runSteps (m + n) s = runSteps n (runSteps m s)) ∧
  (∀ (n : Nat) (s : State) (x : Reg), s.runState = .awaitingKey x → stepBatch n 0 s = { s with keys := 0 })

/-- R112: JP sets pc to the embedded address and changes nothing else. -/
def Obligations.JumpGoesToAddress : Prop :=
  ∀ (nnn : Word) (s : State), ∃ t, exec (.jp nnn) s = .next t ∧ t.pc = nnn ∧ Frame [.pc] [] s t

/-- R112, "a jump to its own address (a = NNN) is an infinite loop of single steps; nothing else changes": however many
steps are taken, none faults and the state is the same. The word's meaning is the spec's decision D5, that
an odd pc is legal its decision D16. -/
def Obligations.SelfJumpLoopsForever : Prop :=
  ∀ (n : Nat) (s : State), s.runState = .running → s.pc.toNat + 2 ≤ 4096 →
    decodeBytes [s.mem.read s.pc.toNat, s.mem.read (s.pc.toNat + 1)] = .instr (.jp s.pc) →
    SafeRun n s ∧ runSteps n s = s

/-- R113: CALL pushes the pc already past itself and jumps; with 24 entries on the stack it faults. -/
def Obligations.CallPushesAndJumps : Prop :=
  ∀ (nnn : Word) (s : State),
    (s.sp < 24 → ∃ t, exec (.call nnn) s = .next t ∧ t.stackEntry s.sp = s.pc ∧
      (∀ k, k ≠ s.sp → t.stackEntry k = s.stackEntry k) ∧ t.sp = s.sp + 1 ∧ t.pc = nnn ∧
      Frame [.pc, .stack] [] s t) ∧
    (s.sp = 24 → FaultsWith .stackOverflow (.call nnn) s)

/-- R111, R226: RET pops the top entry into pc and leaves the entries as they are; it faults on an empty stack, and
else on a return address outside memory (the spec's decisions D11, D15, D32). -/
def Obligations.ReturnPopsOrFaults : Prop :=
  ∀ s : State,
    (s.sp = 0 → FaultsWith .stackUnderflow .ret s) ∧
    (0 < s.sp → 4096 ≤ (s.stackEntry (s.sp - 1)).toNat → FaultsWith .returnOutOfBounds .ret s) ∧
    (0 < s.sp → (s.stackEntry (s.sp - 1)).toNat < 4096 →
      ∃ t, exec .ret s = .next t ∧ t.pc = s.stackEntry (s.sp - 1) ∧ t.sp = s.sp - 1 ∧ t.stack = s.stack ∧
        Frame [.pc, .stack] [] s t)

/-- R119, the source's round trip: at any depth below 24, a RET in any later state with the stack as the CALL left it
goes back to the instruction after the CALL and restores the height (the spec's decisions D11 and D32). -/
def Obligations.CallThenReturnRestoresPc : Prop :=
  ∀ (nnn : Word) (s : State), s.sp < 24 → s.pc.toNat < 4096 →
    ∃ t, exec (.call nnn) s = .next t ∧
      ∀ u : State, u.sp = t.sp → u.stack = t.stack →
        ∃ v, exec .ret u = .next v ∧ v.pc = s.pc ∧ v.sp = s.sp

/-- R110, R114, R115, R116, R117: the four register skips (the spec's decision D11 fixes the skip's bound). -/
def Obligations.SkipsOnRegisterComparison : Prop :=
  ∀ (x y : Reg) (nn : Byte) (s : State),
    SkipsWhen (s.v x = nn) (.seImm x nn) s ∧ SkipsWhen (s.v x ≠ nn) (.sneImm x nn) s ∧
    SkipsWhen (s.v x = s.v y) (.seReg x y) s ∧ SkipsWhen (s.v x ≠ s.v y) (.sneReg x y) s

/-- R118: JP V0 goes to NNN + V0, not wrapped, or faults (the spec's decision D11). -/
def Obligations.JumpWithOffsetAddsV0 : Prop :=
  ∀ (nnn : Word) (s : State),
    (nnn.toNat + (s.v 0).toNat < 4096 →
      ∃ t, exec (.jpV0 nnn) s = .next t ∧ t.pc.toNat = nnn.toNat + (s.v 0).toNat ∧ Frame [.pc] [] s t) ∧
    (4096 ≤ nnn.toNat + (s.v 0).toNat → FaultsWith .jumpOutOfBounds (.jpV0 nnn) s)

/-- R130, R131: the immediate load and the immediate add modulo 256. VF is unchanged unless it is the destination. -/
def Obligations.ImmediateLoadAndAdd : Prop :=
  ∀ (x : Reg) (nn : Byte) (s : State),
    (∃ t, exec (.ldImm x nn) s = .next t ∧ t.v x = nn ∧ Frame [] [x] s t) ∧
    (∃ t, exec (.addImm x nn) s = .next t ∧ (t.v x).toNat = ((s.v x).toNat + nn.toNat) % 256 ∧ Frame [] [x] s t)

/-- R133, R134, R135, R136: assign, OR, AND and XOR, bit by bit, for every X and Y, VF among them; VF is not written
unless X = F (the spec's decision D9). -/
def Obligations.AssignAndLogic : Prop :=
  ∀ (x y : Reg) (s : State),
    (∃ t, exec (.ldReg x y) s = .next t ∧ t.v x = s.v y ∧ Frame [] [x] s t) ∧
    (∃ t, exec (.orReg x y) s = .next t ∧
      (∀ k, (t.v x).getLsbD k = ((s.v x).getLsbD k || (s.v y).getLsbD k)) ∧ Frame [] [x] s t) ∧
    (∃ t, exec (.andReg x y) s = .next t ∧
      (∀ k, (t.v x).getLsbD k = ((s.v x).getLsbD k && (s.v y).getLsbD k)) ∧ Frame [] [x] s t) ∧
    (∃ t, exec (.xorReg x y) s = .next t ∧
      (∀ k, (t.v x).getLsbD k = ((s.v x).getLsbD k ^^ (s.v y).getLsbD k)) ∧ Frame [] [x] s t)

/-- R137: "result = (a+b) mod 256, and flag = 1 iff a+b > 255". -/
def Obligations.AddSetsCarry : Prop :=
  ∀ (x y : Reg) (s : State), x ≠ 15 → y ≠ 15 →
    ∃ t, exec (.addReg x y) s = .next t ∧ (t.v x).toNat = ((s.v x).toNat + (s.v y).toNat) % 256 ∧
      (t.v 15).toNat = (if (s.v x).toNat + (s.v y).toNat > 255 then 1 else 0) ∧ Frame [] [x, 15] s t

/-- R138, R139: SUB gives x - y and SUBN y - x, modulo 256 of the integer difference, and VF is NOT borrow. -/
def Obligations.SubtractSetsNotBorrow : Prop :=
  ∀ (x y : Reg) (s : State), x ≠ 15 → y ≠ 15 →
    (∃ t, exec (.subReg x y) s = .next t ∧
      ((t.v x).toNat : Int) = (((s.v x).toNat : Int) - ((s.v y).toNat : Int)) % 256 ∧
      (t.v 15).toNat = (if (s.v x).toNat ≥ (s.v y).toNat then 1 else 0) ∧ Frame [] [x, 15] s t) ∧
    (∃ t, exec (.subnReg x y) s = .next t ∧
      ((t.v x).toNat : Int) = (((s.v y).toNat : Int) - ((s.v x).toNat : Int)) % 256 ∧
      (t.v 15).toNat = (if (s.v y).toNat ≥ (s.v x).toNat then 1 else 0) ∧ Frame [] [x, 15] s t)

/-- R140, R141: both shifts move by one bit, VF is the bit shifted out, and the operand is V[X] or V[Y] by
SHIFT_SOURCE (the spec's decision D8). -/
def Obligations.ShiftsMoveOneBit : Prop :=
  ∀ (x y : Reg) (s : State) (src : Nat), x ≠ 15 → y ≠ 15 →
    src = (match s.params.shiftSource with
      | .vx => (s.v x).toNat
      | .vy => (s.v y).toNat) →
    (∃ t, exec (.shr x y) s = .next t ∧ (t.v x).toNat = src / 2 ∧ (t.v 15).toNat = src % 2 ∧
      Frame [] [x, 15] s t) ∧
    (∃ t, exec (.shl x y) s = .next t ∧ (t.v x).toNat = src * 2 % 256 ∧ (t.v 15).toNat = src / 128 ∧
      Frame [] [x, 15] s t)

/-- R132, R258: the five flag-writing ALU operations fault when X or Y is F, the shifts too when Y is not read (the
spec's decisions D8 and D9). -/
def Obligations.FlagRegisterOperandFaults : Prop :=
  ∀ (x y : Reg) (s : State), x = 15 ∨ y = 15 →
    FaultsWith .flagOperand (.addReg x y) s ∧ FaultsWith .flagOperand (.subReg x y) s ∧
    FaultsWith .flagOperand (.subnReg x y) s ∧ FaultsWith .flagOperand (.shr x y) s ∧
    FaultsWith .flagOperand (.shl x y) s

/-- R142, R238: RND writes a fresh draw AND the mask; one draw is used up, and a bit outside the mask is 0 whatever
the draw (the spec's decision D17; the draw is the free value of log entry 2). -/
def Obligations.RandomIsMaskedDraw : Prop :=
  ∀ (x : Reg) (nn : Byte) (s : State),
    ∃ t, exec (.rnd x nn) s = .next t ∧ t.v x = (Config.drawRandom s.draws &&& nn) ∧ t.draws = s.draws + 1 ∧
      (∀ k, nn.getLsbD k = false → (t.v x).getLsbD k = false) ∧ Frame [.draws] [x] s t

/-- R160: LD I loads the embedded address and changes nothing else. -/
def Obligations.LoadIndexImmediate : Prop :=
  ∀ (nnn : Word) (s : State), ∃ t, exec (.ldI nnn) s = .next t ∧ t.i = nnn ∧ Frame [.i] [] s t

/-- R161: ADD I adds V[X] to I, or faults where the sum is no memory address; VF is not written unless it is a fault
(the spec's decisions D12 and D26). -/
def Obligations.AddToIndexOrFaults : Prop :=
  ∀ (x : Reg) (s : State),
    (s.i.toNat + (s.v x).toNat < 4096 →
      ∃ t, exec (.addI x) s = .next t ∧ t.i.toNat = s.i.toNat + (s.v x).toNat ∧ Frame [.i] [] s t) ∧
    (4096 ≤ s.i.toNat + (s.v x).toNat → FaultsWith .memOutOfBounds (.addI x) s)

/-- R162: LD F points I at the glyph of a value below 16, and faults on 16 or more (the spec's decision D3). -/
def Obligations.GlyphAddressOrFaults : Prop :=
  ∀ (x : Reg) (s : State),
    ((s.v x).toNat < 16 →
      ∃ t, exec (.ldF x) s = .next t ∧ t.i.toNat = 0x010 + 5 * (s.v x).toNat ∧ Frame [.i] [] s t) ∧
    (16 ≤ (s.v x).toNat → FaultsWith .invalidKey (.ldF x) s)

/-- R163: LD B stores the hundreds, tens and units digits at I, I+1 and I+2, and faults where that range leaves memory
(the spec's decision D12). No address in memory is protected (its decision D34). Memory is in canonical form. -/
def Obligations.DecimalDigitsAreStored : Prop :=
  ∀ (x : Reg) (s : State), s.mem.wf = true →
    (s.i.toNat + 3 ≤ 4096 →
      ∃ t, exec (.ldB x) s = .next t ∧
        (t.mem.read s.i.toNat).toNat = (s.v x).toNat / 100 ∧
        (t.mem.read (s.i.toNat + 1)).toNat = (s.v x).toNat / 10 % 10 ∧
        (t.mem.read (s.i.toNat + 2)).toNat = (s.v x).toNat % 10 ∧
        SameMemOutside s.i.toNat 3 s t ∧ Frame [.mem] [] s t) ∧
    (4096 < s.i.toNat + 3 → FaultsWith .memOutOfBounds (.ldB x) s)

/-- R164: LD [I], Vx stores V0 to VX at I to I+X, leaves I as it is, and faults where that range leaves memory (the
spec's decisions D10, D12 and D34). Memory is in canonical form. -/
def Obligations.RegistersAreStored : Prop :=
  ∀ (x : Reg) (s : State), s.mem.wf = true →
    (s.i.toNat + x.val + 1 ≤ 4096 →
      ∃ t, exec (.storeRegs x) s = .next t ∧ (∀ k : Reg, k ≤ x → t.mem.read (s.i.toNat + k.val) = s.v k) ∧
        SameMemOutside s.i.toNat (x.val + 1) s t ∧ Frame [.mem] [] s t) ∧
    (4096 < s.i.toNat + x.val + 1 → FaultsWith .memOutOfBounds (.storeRegs x) s)

/-- R165: LD Vx, [I] loads V0 to VX from I to I+X, leaves I and the other registers as they are, and faults where that
range leaves memory (the spec's decisions D10 and D12). -/
def Obligations.RegistersAreLoaded : Prop :=
  ∀ (x : Reg) (s : State),
    (s.i.toNat + x.val + 1 ≤ 4096 →
      ∃ t, exec (.loadRegs x) s = .next t ∧ (∀ k : Reg, k ≤ x → t.v k = s.mem.read (s.i.toNat + k.val)) ∧
        Frame [] ((List.finRange 16).filter fun k => k ≤ x) s t) ∧
    (4096 < s.i.toNat + x.val + 1 → FaultsWith .memOutOfBounds (.loadRegs x) s)

/-- R164, R165: a block load from where a block store put the registers, whatever changed in between besides memory
and I, gives the stored values back (the spec's decisions D10, D12 and D34). -/
def Obligations.StoreThenLoadRestoresRegisters : Prop :=
  ∀ (x : Reg) (s : State), s.mem.wf = true → s.i.toNat + x.val + 1 ≤ 4096 →
    ∃ t, exec (.storeRegs x) s = .next t ∧
      ∀ u : State, u.mem = t.mem → u.i = s.i →
        ∃ w, exec (.loadRegs x) u = .next w ∧ ∀ k : Reg, k ≤ x → w.v k = s.v k

/-- R181: CLS zeroes the 256 bytes of the frame buffer, so every pixel is unset, and touches nothing else, the shadow
and VF neither (the spec's decisions D2 and D31). Memory is in canonical form. -/
def Obligations.ClearZeroesFrameBuffer : Prop :=
  ∀ s : State, s.mem.wf = true →
    ∃ t, exec .cls s = .next t ∧ (∀ k, k < 256 → t.mem.read (0xF00 + k) = 0) ∧
      (∀ px py, px < 64 → py < 32 → t.mem.pixel px py = false) ∧
      SameMemOutside 0xF00 256 s t ∧ Frame [.mem] [] s t

/-- R182: DRW completes when I + N is a memory address and faults when it is not; it writes VF with 0 or 1, and no
byte but those of the pixels its sprite bits may land on (the spec's decisions D7, D12 and D24). -/
def Obligations.DrawCompletesOrFaults : Prop :=
  ∀ (x y : Reg) (n : Nat) (s : State),
    (s.i.toNat + n < 4096 →
      ∃ t, exec (.drw x y n) s = .next t ∧ (t.v 15 = 0 ∨ t.v 15 = 1) ∧
        (∀ a, (∀ r c px py, r < n → c < 8 → px < 64 → py < 32 →
            landsOn s.params.spriteEdge ((s.v x).toNat + c) ((s.v y).toNat + r) px py = true →
            a ≠ 0xF00 + 8 * py + px / 8) → t.mem.read a = s.mem.read a) ∧
        SameMemOutside 0xF00 256 s t ∧ Frame [.mem] [15] s t) ∧
    (4096 ≤ s.i.toNat + n → FaultsWith .memOutOfBounds (.drw x y n) s)

/-- R182, R183, row by row and whatever the sprite's source overlaps: no rows leave the display alone with VF = 0, and
one row more XORs that row's bits, read from memory after the rows before it were drawn, into the display, and
collides exactly when one of them lands on a set pixel (the spec's decisions D7 and D24). Memory is in canonical
form. -/
def Obligations.DrawIsRowByRow : Prop :=
  ∀ (x y : Reg) (n : Nat) (s : State), s.mem.wf = true → n + 1 < 16 → s.i.toNat + n + 1 < 4096 →
    (∃ z, exec (.drw x y 0) s = .next z ∧ z.v 15 = 0 ∧ ∀ a, z.mem.read a = s.mem.read a) ∧
    ∃ t u, exec (.drw x y n) s = .next t ∧ exec (.drw x y (n + 1)) s = .next u ∧
      (∀ px py, px < 64 → py < 32 → u.mem.pixel px py =
        (t.mem.pixel px py ^^ rowBit s.params.spriteEdge (t.mem.read (s.i.toNat + n)) (s.v x).toNat
          ((s.v y).toNat + n) px py)) ∧
      (u.v 15 = 1 ↔ t.v 15 = 1 ∨ ∃ px py, px < 64 ∧ py < 32 ∧ t.mem.pixel px py = true ∧
        rowBit s.params.spriteEdge (t.mem.read (s.i.toNat + n)) (s.v x).toNat ((s.v y).toNat + n) px py = true)

/-- R182, R183: a sprite whose source bytes lie below the frame buffer is XORed as a whole: every display pixel is
toggled exactly when a set sprite bit lands on it, and VF is 1 exactly when such a pixel was set before (the spec's
decision D7, and its decision D24 for X or Y = F, whose coordinate is read before VF is written, and for N = 0). Memory
is in canonical form. -/
def Obligations.DrawXorsWholeSprite : Prop :=
  ∀ (x y : Reg) (n : Nat) (s : State), s.mem.wf = true → n < 16 → s.i.toNat + n ≤ 0xF00 →
    ∃ t, exec (.drw x y n) s = .next t ∧
      (∀ px py, px < 64 → py < 32 → t.mem.pixel px py = (s.mem.pixel px py ^^ spriteBit s x y n px py)) ∧
      (t.v 15 = 1 ↔ ∃ px py, px < 64 ∧ py < 32 ∧ s.mem.pixel px py = true ∧ spriteBit s x y n px py = true)

/-- R184: drawing the same sprite twice restores memory, and the second draw's VF is 1 exactly when some set sprite bit
on the display fell on a pixel that was 0 before the first draw (the spec's decision D7, and D24 for N = 0). Memory is in
canonical form. -/
def Obligations.DoubleDrawRestoresDisplay : Prop :=
  ∀ (x y : Reg) (n : Nat) (s : State), s.mem.wf = true → n < 16 → s.i.toNat + n ≤ 0xF00 → x ≠ 15 → y ≠ 15 →
    ∃ t u, exec (.drw x y n) s = .next t ∧ exec (.drw x y n) t = .next u ∧ u.mem = s.mem ∧
      (u.v 15 = 1 ↔ ∃ px py, px < 64 ∧ py < 32 ∧ s.mem.pixel px py = false ∧ spriteBit s x y n px py = true)

/-- R185: on an engine that is not faulted the redraw query is true exactly when the shadow differs from the frame buffer
in some byte, and changes no state. That the buffer has 256 bytes is the spec's decision D2. -/
def Obligations.RedrawQueryComparesShadow : Prop :=
  ∀ s : State, s.isFaulted = false → (hostOp .needsRedraw s).1 = s ∧
    ∃ b, (hostOp .needsRedraw s).2 = .flag b ∧
      (b = true ↔ ∃ (k : Nat) (h : k < 256), s.shadow[k] ≠ s.mem.read (0xF00 + k))

/-- R186: on an engine that is not faulted Commit copies the frame buffer into the shadow and changes nothing else, and
right after it the redraw query returns false. That the buffer has 256 bytes is the spec's decision D2. -/
def Obligations.CommitCopiesFrameBuffer : Prop :=
  ∀ s : State, s.isFaulted = false →
    ∃ t, (hostOp .commit s).1 = t ∧ (∀ (k : Nat) (h : k < 256), t.shadow[k] = s.mem.read (0xF00 + k)) ∧
    t = { s with shadow := t.shadow } ∧ (hostOp .needsRedraw t).2 = .flag false

/-- R187, R230, R235, R237: the host's queries change no state. On an engine that is not faulted they return the 256
bytes from 0xF00 on (the spec's decision D2), whether ST is above 0, and what the dump reads: registers, pc, I, timers
and stack (its decision D33). Status returns run_state, of a faulted engine too. -/
def Obligations.QueriesReturnState : Prop :=
  ∀ s : State,
    (s.isFaulted = false →
      (∃ bs, hostOp .readFrameBuffer s = (s, .bytes bs) ∧ bs.length = 256 ∧
        ∀ (k : Nat) (h : k < bs.length), bs[k] = s.mem.read (0xF00 + k)) ∧
      (∃ b, hostOp .soundOn s = (s, .flag b) ∧ (b = true ↔ 0 < s.st.toNat)) ∧
      ∃ d, hostOp .dump s = (s, .dumped d) ∧ d.regs = s.regs ∧ d.pc = s.pc ∧ d.i = s.i ∧ d.dt = s.dt ∧
        d.st = s.st ∧ d.stack = s.stack ∧ d.sp = s.sp) ∧
    hostOp .status s = (s, .status s.runState)

/-- R200, R201, R226: the key skips test the one bit that V[X] names, and fault on an index of 16 or more before
anything else (the spec's decisions D15 and D25). -/
def Obligations.KeySkipsTestOneKey : Prop :=
  ∀ (x : Reg) (s : State),
    ((s.v x).toNat < 16 →
      SkipsWhen (s.keys.getLsbD (s.v x).toNat = true) (.skp x) s ∧
      SkipsWhen (s.keys.getLsbD (s.v x).toNat = false) (.sknp x) s) ∧
    (16 ≤ (s.v x).toNat → FaultsWith .invalidKey (.skp x) s ∧ FaultsWith .invalidKey (.sknp x) s)

/-- R202, R203, R204: the timers are copied to and from a register, and nothing else changes. Sound turns on or off at
once by the value written to ST. -/
def Obligations.TimerAccessCopies : Prop :=
  ∀ (x : Reg) (s : State),
    (∃ t, exec (.ldVxDT x) s = .next t ∧ t.v x = s.dt ∧ Frame [] [x] s t) ∧
    (∃ t, exec (.ldDTVx x) s = .next t ∧ t.dt = s.v x ∧ Frame [.dt] [] s t) ∧
    (∃ t, exec (.ldSTVx x) s = .next t ∧ t.st = s.v x ∧ (soundOn t = true ↔ 0 < (s.v x).toNat) ∧
      Frame [.st] [] s t)

/-- R205: LD Vx, K records the register and enters the wait; it looks at no key and writes no register. -/
def Obligations.AwaitKeyEntersWait : Prop :=
  ∀ (x : Reg) (s : State), ∃ t, exec (.ldVxK x) s = .next t ∧ t.runState = .awaitingKey x ∧ Frame [.runState] [] s t

/-- R229, R230, R231: Tick takes one from each timer, floored at 0, in Running and AwaitingKey alike, and changes
nothing else; sound is on exactly while ST is above 0. On a faulted engine it does nothing (the spec's decision
D30). -/
def Obligations.TickCountsTimersDown : Prop :=
  ∀ s : State, ∃ t, (hostOp .tick s).1 = t ∧
    (s.isFaulted = true → t = s) ∧
    (s.isFaulted = false → t.dt.toNat = s.dt.toNat - 1 ∧ t.st.toNat = s.st.toNat - 1 ∧
      t = { s with dt := t.dt, st := t.st } ∧ (soundOn t = true ↔ 1 < s.st.toNat))

/-- R21, R32: an instruction that neither writes VF implicitly nor names it as destination leaves VF alone, and one
that writes it implicitly leaves exactly 0 or 1 in it (the spec's decision D9 keeps assign, OR, AND and XOR out of
the flag writers). -/
def Obligations.FlagRegisterWriters : Prop :=
  ∀ (i : Instr) (s t : State), exec i s = .next t → t.isFaulted = false →
    (writesFlag i = false → namesFlagAsDestination i = false → t.v 15 = s.v 15) ∧
    (writesFlag i = true → t.v 15 = 0 ∨ t.v 15 = 1)

/-- R24: only LD I, ADD I and LD F write I (the spec's decision D10). -/
def Obligations.IndexWriters : Prop :=
  ∀ (i : Instr) (s t : State), exec i s = .next t → t.isFaulted = false →
    (∀ nnn, i ≠ .ldI nnn) → (∀ x, i ≠ .addI x) → (∀ x, i ≠ .ldF x) → t.i = s.i

/-- R25: only CALL and RET change the stack or its height, and RET leaves the entries as they are, a popped entry uncleared
(the spec's decision D32). -/
def Obligations.StackWriters : Prop :=
  ∀ (i : Instr) (s t : State), exec i s = .next t → t.isFaulted = false →
    ((∀ nnn, i ≠ .call nnn) → t.stack = s.stack ∧ (i ≠ .ret → t.sp = s.sp))

/-- R26, R230: DT and ST are written only by LD DT, Vx and LD ST, Vx, "never by instruction execution itself"
otherwise, so sound changes in a step only with FX18; a key-wait step writes neither. -/
def Obligations.TimerWriters : Prop :=
  (∀ (i : Instr) (s t : State), exec i s = .next t → t.isFaulted = false →
    ((∀ x, i ≠ .ldDTVx x) → t.dt = s.dt) ∧
    ((∀ x, i ≠ .ldSTVx x) → t.st = s.st ∧ soundOn t = soundOn s)) ∧
  (∀ (s t : State) (x : Reg), s.runState = .awaitingKey x → step s = .next t → t.dt = s.dt ∧ t.st = s.st)

/-- R27, R28, R29: no instruction writes KEYS or the shadow, and in a step that does not fault run_state changes only
by LD Vx, K and by the key-wait service. That CLS does not touch the shadow is the spec's decision D31. -/
def Obligations.StepsLeaveHostStateAlone : Prop :=
  ∀ s t : State, step s = .next t → t.isFaulted = false →
    t.keys = s.keys ∧ t.shadow = s.shadow ∧ t.params = s.params ∧ t.dumps = s.dumps ∧
    (t.runState ≠ s.runState → (∃ x, s.runState = .awaitingKey x ∧ t.runState = .running) ∨
      (s.runState = .running ∧ ∃ x, decode (fetchedWord s) = .instr (.ldVxK x) ∧ t.runState = .awaitingKey x))

/-- R57: only CLS, DRW, LD B and LD [I] write memory. -/
def Obligations.MemoryWriters : Prop :=
  ∀ (i : Instr) (s t : State), exec i s = .next t → t.isFaulted = false →
    i ≠ .cls → (∀ x y n, i ≠ .drw x y n) → (∀ x, i ≠ .ldB x) → (∀ x, i ≠ .storeRegs x) → t.mem = s.mem

/-- R221, column "raised by": an execute phase raises only the reasons listed for its instruction (the spec's decision
D14). -/
def Obligations.FaultReasonsByInstruction : Prop :=
  ∀ (i : Instr) (s t : State) (reason : FaultReason) (info : FaultInfo), s.isFaulted = false →
    exec i s = .next t → t.runState = .faulted reason info → reason ∈ faultReasons i

/-- R222, R223: a step that faults was taken in Running (a key-wait step never faults), records its fetch address and,
unless no word was fetched, the word at that address, and emits one dump (the spec's decision D14; the emission is
log entry 6). -/
def Obligations.FaultRecordsAddressAndWord : Prop :=
  ∀ (s t : State) (reason : FaultReason) (info : FaultInfo), step s = .next t → t.runState = .faulted reason info →
    s.runState = .running ∧ info.addr = s.pc ∧
    (reason = .pcOutOfBounds → info.word = none) ∧
    (reason ≠ .pcOutOfBounds → ∃ w, info.word = some w ∧
      w.toNat = (s.mem.read s.pc.toNat).toNat * 256 + (s.mem.read (s.pc.toNat + 1)).toNat) ∧
    t.dumps.length = s.dumps.length + 1

/-- R33, R250: the state at construction. Running, no key pressed and the zero shadow are the spec's decisions D18 and
D21. -/
def Obligations.ConstructionZeroesState : Prop :=
  (∀ r : Reg, State.reset.v r = 0) ∧ State.reset.i = 0 ∧ State.reset.pc = 0 ∧ State.reset.dt = 0 ∧
  State.reset.st = 0 ∧ State.reset.sp = 0 ∧ (∀ k, State.reset.stackEntry k = 0) ∧
  (∀ a, State.reset.mem.read a = 0) ∧ State.reset.runState = .running ∧ State.reset.keys = 0 ∧
  (∀ (k : Nat) (h : k < 256), State.reset.shadow[k] = 0)

/-- R35: the model's invariant holds at construction. -/
def Obligations.ConstructionMeetsInvariant : Prop := State.reset.Inv

/-- R35, R25, R23, R24: every step keeps the invariant: memory canonical, and unless the engine is faulted SP at most
24, I at most 0xFFF, pc and every stack entry at most 4096. The bounds of pc, of I and of the entries rest on the spec's
decisions D11, D12 and D32. -/
def Obligations.StepKeepsInvariant : Prop :=
  ∀ s t : State, s.Inv → step s = .next t → t.Inv

/-- R35, R98: the invariant holds in every state that any sequence of host operations leads to from construction (the
spec's decisions D11, D12, D18, D20 and D32). -/
def Obligations.ReachableStatesMeetInvariant : Prop := ∀ s : State, Reachable s → s.Inv

/-- R251, R254: on an engine that is not faulted an image with S + offset below 4096 loads: its bytes at the offset, the 80 glyph bytes at 0x010, pc at
the offset, and nothing else changes (the spec's decisions D3, D22 and D23, and D34 for an image that reaches the frame
buffer). Memory is in canonical form. -/
def Obligations.LoadPlacesImageAndGlyphs : Prop :=
  ∀ (image : List Byte) (species : Species) (s : State), s.mem.wf = true → s.isFaulted = false →
    image.length + (match species with
      | .primary => 0x200
      | .alternate => 0x600) < 4096 →
    ∃ t, hostOp (.load image species) s = (t, .loaded true) ∧
      t.pc.toNat = (match species with
        | .primary => 0x200
        | .alternate => 0x600) ∧
      (∀ (k : Nat) (h : k < image.length), t.mem.read (t.pc.toNat + k) = image[k]) ∧
      (∀ (k : Nat) (h : k < 80), t.mem.read (0x010 + k) = s.params.glyphData[k]) ∧
      (∀ a, (a < 0x010 ∨ 0x060 ≤ a) → (a < t.pc.toNat ∨ t.pc.toNat + image.length ≤ a) →
        t.mem.read a = s.mem.read a) ∧
      t = { s with pc := t.pc, mem := t.mem }

/-- R252: an image that does not fit is not loaded: Failure, and no state changes. The exact limit is the spec's decision
D22; that a faulted engine is treated alike is log entry 14. -/
def Obligations.LoadFailureChangesNothing : Prop :=
  ∀ (image : List Byte) (species : Species) (s : State),
    4096 ≤ image.length + (match species with
      | .primary => 0x200
      | .alternate => 0x600) →
    hostOp (.load image species) s = (s, .loaded false)

/-- R255: without a Load the first step faults F_UNDEFINED_OPCODE at address 0. -/
def Obligations.UnloadedEngineFaults : Prop :=
  ∃ t, step State.reset = .next t ∧ t.runState = .faulted .undefinedOpcode { addr := 0, word := some 0 }

/-- R254, R255: after a successful Load on a running engine pc is the load offset, 0x200 or 0x600 by species, and the
first step runs the instruction in the image's first two bytes, high byte first, from there (the spec's decisions D5,
D22 and D23). Memory is in canonical form. -/
def Obligations.LoadedImageRunsFromEntry : Prop :=
  ∀ (hi lo : Byte) (rest : List Byte) (species : Species) (s : State) (i : Instr), s.mem.wf = true →
    s.runState = .running →
    rest.length + 2 + (match species with
      | .primary => 0x200
      | .alternate => 0x600) < 4096 →
    decode (BitVec.ofNat 16 (hi.toNat * 256 + lo.toNat)) = .instr i →
    ∃ t, hostOp (.load (hi :: lo :: rest) species) s = (t, .loaded true) ∧
      t.pc.toNat = (match species with
        | .primary => 0x200
        | .alternate => 0x600) ∧
      t.runState = .running ∧ step t = exec i { t with pc := t.pc + 2 }

/-- R35, R98: every host operation keeps the invariant, from every state that meets it: a batch of any size with any
keys, Tick, Load of any image, Commit and the queries (the spec's decisions D11, D12 and D32; what Load and Commit do on
a faulted engine is log entry 14). -/
def Obligations.HostOperationsKeepInvariant : Prop :=
  ∀ (op : HostOp) (s : State), s.Inv → (hostOp op s).1.Inv
end

