-- ==== Sys2Proof/Laws/Decode.lean ====
section
/-! SUPPORT. The fields of a word as arithmetic on its value, and that a whole word is never truncated. -/

namespace Sys2Proof

theorem fieldG_eq (w : Word) : fieldG w = w.toNat / 4096 := by
  have := w.isLt
  simp only [fieldG, bits]
  omega

theorem fieldX_val (w : Word) : (fieldX w).val = w.toNat / 256 % 16 := by
  simp [fieldX, bits, Fin.ofNat]

theorem fieldY_val (w : Word) : (fieldY w).val = w.toNat / 16 % 16 := by
  simp [fieldY, bits, Fin.ofNat]

theorem fieldN_eq (w : Word) : fieldN w = w.toNat % 16 := by
  simp [fieldN, bits]

theorem fieldNN_toNat (w : Word) : (fieldNN w).toNat = w.toNat % 256 := by
  simp [fieldNN, bits]

theorem fieldNNN_toNat (w : Word) : (fieldNNN w).toNat = w.toNat % 4096 := by
  have := w.isLt
  simp only [fieldNNN, bits, BitVec.toNat_ofNat]
  omega

theorem encodeGNNN_toNat {g : Nat} (nnn : Word) (hg : g < 16) :
    (encodeGNNN g nnn).toNat = g * 4096 + nnn.toNat % 4096 := by
  simp only [encodeGNNN, BitVec.toNat_ofNat]
  omega

theorem encodeGXNN_toNat {g : Nat} (x : Reg) (nn : Byte) (hg : g < 16) :
    (encodeGXNN g x nn).toNat = g * 4096 + x.val * 256 + nn.toNat := by
  have := x.isLt
  have := nn.isLt
  simp only [encodeGXNN, BitVec.toNat_ofNat]
  omega

theorem encodeGXYN_toNat {g : Nat} (x y : Reg) (n : Nat) (hg : g < 16) :
    (encodeGXYN g x y n).toNat = g * 4096 + x.val * 256 + y.val * 16 + n % 16 := by
  have := x.isLt
  have := y.isLt
  simp only [encodeGXYN, BitVec.toNat_ofNat]
  omega

theorem wordOfBytes_toNat (hi lo : Byte) : (wordOfBytes hi lo).toNat = hi.toNat * 256 + lo.toNat := by
  have := hi.isLt
  have := lo.isLt
  simp only [wordOfBytes, BitVec.toNat_ofNat]
  omega

theorem decode_ne_truncated (w : Word) : decode w ≠ .truncated := by
  unfold decode decodeGroup0 decodeGroup8 decodeGroupE decodeGroupF
  repeat' split
  all_goals simp

end Sys2Proof
end

