-- ==== Sys2Proof/Laws/State.lean ====
section
/-! SUPPORT. What each update of the state changes, field by field, and how register reads see register writes. -/

namespace Sys2Proof.Machine

variable (s : State)

section SetV

variable (x y : Reg) (b : Byte)

@[simp] theorem State.setV_i : (s.setV x b).i = s.i := rfl
@[simp] theorem State.setV_pc : (s.setV x b).pc = s.pc := rfl
@[simp] theorem State.setV_stack : (s.setV x b).stack = s.stack := rfl
@[simp] theorem State.setV_sp : (s.setV x b).sp = s.sp := rfl
@[simp] theorem State.setV_dt : (s.setV x b).dt = s.dt := rfl
@[simp] theorem State.setV_st : (s.setV x b).st = s.st := rfl
@[simp] theorem State.setV_keys : (s.setV x b).keys = s.keys := rfl
@[simp] theorem State.setV_runState : (s.setV x b).runState = s.runState := rfl
@[simp] theorem State.setV_shadow : (s.setV x b).shadow = s.shadow := rfl
@[simp] theorem State.setV_mem : (s.setV x b).mem = s.mem := rfl
@[simp] theorem State.setV_params : (s.setV x b).params = s.params := rfl
@[simp] theorem State.setV_draws : (s.setV x b).draws = s.draws := rfl
@[simp] theorem State.setV_dumps : (s.setV x b).dumps = s.dumps := rfl

theorem State.v_setV : (s.setV x b).v y = if y = x then b else s.v y := by
  unfold State.v State.setV
  rcases eq_or_ne y x with rfl | h
  · simp
  · have : x.val ≠ y.val := fun e => h (Fin.ext e.symm)
    simp [h, this]

@[simp] theorem State.v_setV_same : (s.setV x b).v x = b := by simp [State.v_setV]

theorem State.v_setV_other (h : y ≠ x) : (s.setV x b).v y = s.v y := by simp [State.v_setV, h]

@[simp] theorem State.setV_isFaulted : (s.setV x b).isFaulted = s.isFaulted := rfl

@[simp] theorem State.setV_stackEntry (k : Nat) : (s.setV x b).stackEntry k = s.stackEntry k := rfl

end SetV

section SetPc

variable (target : Nat)

@[simp] theorem State.setPc_regs : (s.setPc target).regs = s.regs := rfl
@[simp] theorem State.setPc_i : (s.setPc target).i = s.i := rfl
@[simp] theorem State.setPc_stack : (s.setPc target).stack = s.stack := rfl
@[simp] theorem State.setPc_sp : (s.setPc target).sp = s.sp := rfl
@[simp] theorem State.setPc_dt : (s.setPc target).dt = s.dt := rfl
@[simp] theorem State.setPc_st : (s.setPc target).st = s.st := rfl
@[simp] theorem State.setPc_keys : (s.setPc target).keys = s.keys := rfl
@[simp] theorem State.setPc_runState : (s.setPc target).runState = s.runState := rfl
@[simp] theorem State.setPc_shadow : (s.setPc target).shadow = s.shadow := rfl
@[simp] theorem State.setPc_mem : (s.setPc target).mem = s.mem := rfl
@[simp] theorem State.setPc_params : (s.setPc target).params = s.params := rfl
@[simp] theorem State.setPc_draws : (s.setPc target).draws = s.draws := rfl
@[simp] theorem State.setPc_dumps : (s.setPc target).dumps = s.dumps := rfl
@[simp] theorem State.setPc_pc : (s.setPc target).pc = BitVec.ofNat 16 target := rfl
@[simp] theorem State.setPc_v (x : Reg) : (s.setPc target).v x = s.v x := rfl
@[simp] theorem State.setPc_isFaulted : (s.setPc target).isFaulted = s.isFaulted := rfl
@[simp] theorem State.setPc_stackEntry (k : Nat) : (s.setPc target).stackEntry k = s.stackEntry k := rfl

theorem State.setPc_pc_toNat (h : target < 65536) : (s.setPc target).pc.toNat = target := by
  simp [Nat.mod_eq_of_lt h]

end SetPc

section SetI

variable (address : Nat)

@[simp] theorem State.setI_regs : (s.setI address).regs = s.regs := rfl
@[simp] theorem State.setI_pc : (s.setI address).pc = s.pc := rfl
@[simp] theorem State.setI_stack : (s.setI address).stack = s.stack := rfl
@[simp] theorem State.setI_sp : (s.setI address).sp = s.sp := rfl
@[simp] theorem State.setI_dt : (s.setI address).dt = s.dt := rfl
@[simp] theorem State.setI_st : (s.setI address).st = s.st := rfl
@[simp] theorem State.setI_keys : (s.setI address).keys = s.keys := rfl
@[simp] theorem State.setI_runState : (s.setI address).runState = s.runState := rfl
@[simp] theorem State.setI_shadow : (s.setI address).shadow = s.shadow := rfl
@[simp] theorem State.setI_mem : (s.setI address).mem = s.mem := rfl
@[simp] theorem State.setI_params : (s.setI address).params = s.params := rfl
@[simp] theorem State.setI_draws : (s.setI address).draws = s.draws := rfl
@[simp] theorem State.setI_dumps : (s.setI address).dumps = s.dumps := rfl
@[simp] theorem State.setI_i : (s.setI address).i = BitVec.ofNat 16 address := rfl
@[simp] theorem State.setI_v (x : Reg) : (s.setI address).v x = s.v x := rfl
@[simp] theorem State.setI_isFaulted : (s.setI address).isFaulted = s.isFaulted := rfl
@[simp] theorem State.setI_stackEntry (k : Nat) : (s.setI address).stackEntry k = s.stackEntry k := rfl

theorem State.setI_i_toNat (h : address < 65536) : (s.setI address).i.toNat = address := by
  simp [Nat.mod_eq_of_lt h]

end SetI

section RaiseFault

variable (reason : FaultReason) (info : FaultInfo)

@[simp] theorem raiseFault_runState : (raiseFault reason info s).runState = .faulted reason info := rfl
@[simp] theorem raiseFault_params : (raiseFault reason info s).params = s.params := rfl
@[simp] theorem raiseFault_draws : (raiseFault reason info s).draws = s.draws := rfl
@[simp] theorem raiseFault_dumps : (raiseFault reason info s).dumps = s.dumpView :: s.dumps := rfl
@[simp] theorem raiseFault_isFaulted : (raiseFault reason info s).isFaulted = true := rfl

end RaiseFault

theorem State.isFaulted_iff : s.isFaulted = true ↔ ∃ r info, s.runState = .faulted r info := by
  unfold State.isFaulted
  split <;> simp_all

theorem State.not_isFaulted_of_running (h : s.runState = .running) : s.isFaulted = false := by
  simp [State.isFaulted, h]

theorem State.not_isFaulted_of_awaitingKey {x : Reg} (h : s.runState = .awaitingKey x) : s.isFaulted = false := by
  simp [State.isFaulted, h]

end Sys2Proof.Machine
end

