-- ==== Sys2Proof/Laws/Memory.lean ====
section
/-! SUPPORT. The laws of memory: a read after a write, writes elsewhere, and that every operation keeps the canonical
form. -/

namespace Sys2Proof.Machine

theorem Memory.risesFrom_mono {lo lo' : Nat} {m : Memory} (hle : lo' ≤ lo) (h : Memory.risesFrom lo m = true) :
    Memory.risesFrom lo' m = true := by
  cases m with
  | nil => rfl
  | cons c rest =>
    simp only [Memory.risesFrom, Bool.and_eq_true, decide_eq_true_eq] at h ⊢
    exact ⟨hle.trans h.1, h.2⟩

/-- An address below the first listed one reads as unlisted. -/
theorem Memory.read_below {lo a : Nat} {m : Memory} (h : Memory.risesFrom lo m = true) (ha : a < lo) :
    m.read a = unlistedByte := by
  induction m generalizing lo with
  | nil => rfl
  | cons c rest ih =>
    simp only [Memory.risesFrom, Bool.and_eq_true, decide_eq_true_eq] at h
    have hne : c.1 ≠ a := by omega
    simp only [Memory.read, if_neg hne]
    exact ih h.2 (by omega)

theorem Memory.risesFrom_insert {lo a : Nat} {m : Memory} (b : Byte) (h : Memory.risesFrom lo m = true)
    (ha : lo ≤ a) : Memory.risesFrom lo (m.insert a b) = true := by
  induction m generalizing lo with
  | nil =>
    unfold Memory.insert
    split <;> simp [Memory.risesFrom, ha]
  | cons c rest ih =>
    simp only [Memory.risesFrom, Bool.and_eq_true, decide_eq_true_eq] at h
    unfold Memory.insert
    split
    · simp only [Memory.risesFrom, Bool.and_eq_true, decide_eq_true_eq]
      exact ⟨h.1, ih h.2 (by omega)⟩
    · by_cases hc : c.1 = a
      · have hrest : Memory.risesFrom (a + 1) rest = true := hc ▸ h.2
        simp only [hc, if_true]
        split
        · exact Memory.risesFrom_mono (by omega) hrest
        · simp [Memory.risesFrom, ha, hrest]
      · simp only [hc, if_false]
        split
        · simp [Memory.risesFrom, h]
        · simp only [Memory.risesFrom, Bool.and_eq_true, decide_eq_true_eq]
          exact ⟨ha, by omega, h.2⟩

theorem Memory.read_insert_other {a k : Nat} (m : Memory) (b : Byte) (hk : k ≠ a) :
    (m.insert a b).read k = m.read k := by
  induction m with
  | nil =>
    unfold Memory.insert
    split <;> simp [Memory.read, Ne.symm hk]
  | cons c rest ih =>
    unfold Memory.insert
    split
    · simp [Memory.read, ih]
    · by_cases hc : c.1 = a
      · simp only [hc, if_true]
        split <;> simp [Memory.read, hc, Ne.symm hk]
      · simp only [hc, if_false]
        split <;> simp [Memory.read, Ne.symm hk]

theorem Memory.read_insert_same {lo a : Nat} {m : Memory} (b : Byte) (h : Memory.risesFrom lo m = true) :
    (m.insert a b).read a = b := by
  induction m generalizing lo with
  | nil =>
    unfold Memory.insert
    split <;> simp_all [Memory.read]
  | cons c rest ih =>
    simp only [Memory.risesFrom, Bool.and_eq_true, decide_eq_true_eq] at h
    unfold Memory.insert
    split
    · rename_i hlt
      have hne : c.1 ≠ a := by omega
      simp [Memory.read, hne, ih h.2]
    · by_cases hb : b = unlistedByte
      · by_cases hc : c.1 = a
        · simp only [hc, hb, if_true]
          exact Memory.read_below (hc ▸ h.2) (by omega)
        · simp only [hc, hb, if_false, if_true]
          have hlo : Memory.risesFrom c.1 (c :: rest) = true := by simp [Memory.risesFrom, h.2]
          exact Memory.read_below hlo (by omega)
      · simp [hb, Memory.read]

theorem Memory.wf_iff (m : Memory) :
    m.wf = true ↔ m.risesFrom 0 = true ∧ ∀ c ∈ m, c.1 < memSize ∧ c.2 ≠ unlistedByte := by
  simp [Memory.wf]

theorem Memory.mem_insert {m : Memory} {a : Nat} {b : Byte} {c : Host.Cell} (h : c ∈ m.insert a b) :
    c ∈ m ∨ (c = (a, b) ∧ b ≠ unlistedByte) := by
  induction m with
  | nil =>
    unfold Memory.insert at h
    split at h
    · simp at h
    · exact Or.inr ⟨by simpa using h, by assumption⟩
  | cons d rest ih =>
    unfold Memory.insert at h
    split at h
    · rcases List.mem_cons.1 h with rfl | h
      · simp
      · rcases ih h with h | h
        · exact Or.inl (List.mem_cons_of_mem _ h)
        · exact Or.inr h
    · by_cases hd : d.1 = a <;> simp only [hd, if_true, if_false] at h <;> split at h <;> simp_all <;> tauto

/-- A write keeps the canonical form, whatever the address. -/
theorem Memory.wf_write {m : Memory} (a : Nat) (b : Byte) (h : m.wf = true) : (m.write a b).wf = true := by
  unfold Memory.write
  split
  · rename_i ha
    rw [Memory.wf_iff] at h ⊢
    refine ⟨Memory.risesFrom_insert b h.1 (Nat.zero_le a), fun c hc => ?_⟩
    rcases Memory.mem_insert hc with hc | ⟨rfl, hb⟩
    · exact h.2 c hc
    · exact ⟨ha, hb⟩
  · exact h

/-- A read after a write to the same place gives the value written (R59). -/
theorem Memory.read_write_same {m : Memory} {a : Nat} (b : Byte) (h : m.wf = true) (ha : a < memSize) :
    (m.write a b).read a = b := by
  simp only [Memory.write, if_pos ha]
  exact Memory.read_insert_same b (m.wf_iff.1 h).1

/-- A write leaves every other place alone (R59). -/
theorem Memory.read_write_other (m : Memory) {a k : Nat} (b : Byte) (hk : k ≠ a) :
    (m.write a b).read k = m.read k := by
  unfold Memory.write
  split
  · exact Memory.read_insert_other m b hk
  · rfl

theorem Memory.wf_writeBytes {m : Memory} (a : Nat) (bs : List Byte) (h : m.wf = true) :
    (m.writeBytes a bs).wf = true := by
  induction bs generalizing m a with
  | nil => exact h
  | cons b bs ih => exact ih (a + 1) (Memory.wf_write a b h)

/-- Outside the bytes written nothing changes. -/
theorem Memory.read_writeBytes_outside (m : Memory) (a k : Nat) (bs : List Byte)
    (hk : k < a ∨ a + bs.length ≤ k) : (m.writeBytes a bs).read k = m.read k := by
  induction bs generalizing m a with
  | nil => rfl
  | cons b bs ih =>
    simp only [List.length_cons] at hk
    simp only [Memory.writeBytes]
    rw [ih (m.write a b) (a + 1) (by omega)]
    exact Memory.read_write_other m b (by omega)

/-- Byte `j` of a run of bytes written inside memory is read back at `a + j`. -/
theorem Memory.read_writeBytes {m : Memory} (a : Nat) (bs : List Byte) (h : m.wf = true)
    (hfit : a + bs.length ≤ memSize) (j : Nat) (hj : j < bs.length) :
    (m.writeBytes a bs).read (a + j) = bs[j] := by
  induction bs generalizing m a j with
  | nil => simp at hj
  | cons b bs ih =>
    simp only [List.length_cons] at hfit hj
    simp only [Memory.writeBytes]
    cases j with
    | zero =>
      rw [Memory.read_writeBytes_outside _ _ _ _ (by omega)]
      simpa using Memory.read_write_same b h (by omega)
    | succ j =>
      have := ih (m := m.write a b) (a + 1) (Memory.wf_write a b h) (by omega) j (by omega)
      simpa [Nat.add_assoc, Nat.add_comm 1 j] using this

@[simp] theorem Memory.length_readBytes (m : Memory) (a n : Nat) : (m.readBytes a n).length = n := by
  simp [Memory.readBytes]

@[simp] theorem Memory.getElem_readBytes (m : Memory) (a n k : Nat) (h : k < (m.readBytes a n).length) :
    (m.readBytes a n)[k] = m.read (a + k) := by
  simp [Memory.readBytes]

theorem Memory.wf_nil : Memory.wf [] = true := rfl

theorem Memory.wf_ofFunction (f : Nat → Byte) : (Memory.ofFunction f).wf = true :=
  Memory.wf_writeBytes _ _ Memory.wf_nil

/-- Two canonical memories that read alike are the same data. -/
theorem Memory.ext_of_read {m m' : Memory} (h : m.wf = true) (h' : m'.wf = true)
    (hread : ∀ a, m.read a = m'.read a) : m = m' := by
  rw [Memory.wf_iff] at h h'
  suffices ∀ lo, m.risesFrom lo = true → m'.risesFrom lo = true → m = m' from this 0 h.1 h'.1
  replace h := h.2
  replace h' := h'.2
  induction m generalizing m' with
  | nil =>
    intro lo _ _
    cases m' with
    | nil => rfl
    | cons d rest =>
      have := hread d.1
      simp only [Memory.read, if_true] at this
      exact absurd this.symm (h' d (by simp)).2
  | cons c rest ih =>
    intro lo hc hd
    cases m' with
    | nil =>
      have := hread c.1
      simp only [Memory.read, if_true] at this
      exact absurd this (h c (by simp)).2
    | cons d rest' =>
      simp only [Memory.risesFrom, Bool.and_eq_true, decide_eq_true_eq] at hc hd
      have hcd : c.1 = d.1 := by
        rcases Nat.lt_trichotomy c.1 d.1 with hlt | heq | hgt
        · have h1 := hread c.1
          simp only [Memory.read, if_true, if_neg (show d.1 ≠ c.1 by omega)] at h1
          rw [Memory.read_below hd.2 (by omega)] at h1
          exact absurd h1 (h c (by simp)).2
        · exact heq
        · have h1 := hread d.1
          simp only [Memory.read, if_true, if_neg (show c.1 ≠ d.1 by omega)] at h1
          rw [Memory.read_below hc.2 (by omega)] at h1
          exact absurd h1.symm (h' d (by simp)).2
      have hval : c.2 = d.2 := by
        have := hread c.1
        simpa [Memory.read, hcd] using this
      have hrest : rest = rest' := by
        refine ih (m' := rest') (fun a => ?_) (fun e he => h e (by simp [he])) (fun e he => h' e (by simp [he]))
          (c.1 + 1) hc.2 (hcd ▸ hd.2)
        by_cases ha : c.1 = a
        · rw [Memory.read_below hc.2 (by omega), Memory.read_below hd.2 (by omega)]
        · have := hread a
          simpa [Memory.read, ha, hcd ▸ ha] using this
      rw [hrest, Prod.ext hcd hval]

@[simp] theorem raiseFault_mem_wf (reason : FaultReason) (info : FaultInfo) (s : State) :
    (raiseFault reason info s).mem.wf = true := by
  simp only [raiseFault]
  exact Memory.wf_ofFunction _

theorem Memory.wf_togglePixel {m : Memory} (px py : Nat) (h : m.wf = true) : (m.togglePixel px py).wf = true :=
  Memory.wf_write _ _ h

/-- A pixel on the display lies in the frame buffer (R180). -/
theorem pixelAddress_mem {px py : Nat} (hx : px < 64) (hy : py < 32) :
    0xF00 ≤ pixelAddress px py ∧ pixelAddress px py < 0x1000 := by
  simp only [pixelAddress, fbBase]
  omega

/-- Toggling a pixel leaves every byte but its own alone. -/
theorem Memory.read_togglePixel_other (m : Memory) {px py a : Nat} (ha : a ≠ pixelAddress px py) :
    (m.togglePixel px py).read a = m.read a := Memory.read_write_other m _ ha

end Sys2Proof.Machine
end

