-- ==== Sys2Proof/Laws/Ops.lean ====
section
/-! SUPPORT. One lemma per shared operation that says everything it can do: if it answers a next state, then one of
these cases holds. Proofs cite these and do not unfold the operation. -/

namespace Sys2Proof.Machine

/-- A fault in the execute phase is a next state in the terminal run state (R223). -/
theorem faultIn_eq (reason : FaultReason) (i : Instr) (s : State) :
    faultIn reason i s = .next (raiseFault reason (executingInfo i s) s) := rfl

/-- SkipNext lands inside memory or faults (R110). -/
theorem skipNext_cases {i : Instr} {s t : State} (h : skipNext i s = .next t) :
    (s.pc.toNat + 2 < memSize ∧ t = s.setPc (s.pc.toNat + 2)) ∨
      (memSize ≤ s.pc.toNat + 2 ∧ t = raiseFault .skipOutOfBounds (executingInfo i s) s) := by
  simp only [skipNext, faultIn_eq] at h
  split at h
  · exact Or.inr ⟨by omega, by injection h with h; exact h.symm⟩
  · exact Or.inl ⟨by omega, by injection h with h; exact h.symm⟩

/-- A conditional skip changes nothing, or is SkipNext (R110). -/
theorem skipIf_cases {c : Bool} {i : Instr} {s t : State} (h : skipIf c i s = .next t) :
    (c = false ∧ t = s) ∨ (c = true ∧ s.pc.toNat + 2 < memSize ∧ t = s.setPc (s.pc.toNat + 2)) ∨
      (c = true ∧ memSize ≤ s.pc.toNat + 2 ∧ t = raiseFault .skipOutOfBounds (executingInfo i s) s) := by
  cases c with
  | false => exact Or.inl ⟨rfl, by injection h with h; exact h.symm⟩
  | true =>
    rcases skipNext_cases h with h | h
    · exact Or.inr (Or.inl ⟨rfl, h⟩)
    · exact Or.inr (Or.inr ⟨rfl, h⟩)

/-- `x = F or y = F` is what FlagCheck tests (R132). -/
theorem namesFlag_iff (x y : Reg) : namesFlag x y = true ↔ x = 15 ∨ y = 15 := by
  simp only [namesFlag, Bool.or_eq_true, decide_eq_true_eq]

/-- A flag-writing ALU operation faults on VF, or writes the result and then the flag (R132). -/
theorem aluFlag_cases {i : Instr} {x y : Reg} {result : Byte} {flag : Bool} {s t : State}
    (h : aluFlag i x y result flag s = .next t) :
    ((x = 15 ∨ y = 15) ∧ t = raiseFault .flagOperand (executingInfo i s) s) ∨
      (x ≠ 15 ∧ y ≠ 15 ∧ t = (s.setV x result).setV vf (flagByte flag)) := by
  simp only [aluFlag, faultIn_eq] at h
  split at h
  · rename_i hf
    exact Or.inl ⟨(namesFlag_iff x y).1 hf, by injection h with h; exact h.symm⟩
  · rename_i hf
    rw [namesFlag_iff] at hf
    exact Or.inr ⟨fun e => hf (Or.inl e), fun e => hf (Or.inr e), by injection h with h; exact h.symm⟩

/-- The result register after the two writes of a flag-writing ALU operation (R132). -/
theorem v_result_of_aluFlag {x : Reg} (s : State) (result flag : Byte) (hx : x ≠ 15) :
    ((s.setV x result).setV vf flag).v x = result := by
  rw [State.v_setV_other _ _ _ _ (by simpa [vf] using hx)]
  exact State.v_setV_same _ _ _

/-- The scan finds the lowest pressed key, and none exactly when no key is pressed (R206). -/
theorem lowestKey_some {keys : BitVec 16} {k : Reg} (h : lowestKey keys = some k) :
    keys.getLsbD k.val = true ∧ ∀ j : Reg, j < k → keys.getLsbD j.val = false := by
  rw [lowestKey, List.find?_eq_some_iff_getElem] at h
  obtain ⟨hk, n, hn, hnk, hbefore⟩ := h
  refine ⟨hk, fun j hj => ?_⟩
  simp only [List.getElem_finRange] at hnk hbefore
  have hval : n = k.val := by simpa using congrArg Fin.val hnk
  have := hbefore j.val (by have := Fin.lt_def.1 hj; omega)
  simpa using this

theorem lowestKey_none {keys : BitVec 16} (h : lowestKey keys = none) (k : Reg) : keys.getLsbD k.val = false := by
  have := List.find?_eq_none.1 h k (List.mem_finRange k)
  simpa using this

/-- KeyWaitService changes nothing, or writes the lowest pressed key and runs on (R206). -/
theorem keyWaitService_cases (x : Reg) (s : State) :
    ((∀ k : Reg, s.keys.getLsbD k.val = false) ∧ keyWaitService x s = s) ∨
      ∃ k : Reg, s.keys.getLsbD k.val = true ∧ (∀ j : Reg, j < k → s.keys.getLsbD j.val = false) ∧
        keyWaitService x s = { s.setV x (BitVec.ofNat 8 k.val) with runState := .running } := by
  cases h : lowestKey s.keys with
  | none => exact Or.inl ⟨lowestKey_none h, by simp [keyWaitService, h]⟩
  | some k => exact Or.inr ⟨k, (lowestKey_some h).1, (lowestKey_some h).2, by simp [keyWaitService, h]⟩

/-- PixelPos answers a pixel on the display (R183). -/
theorem pixelPos_lt {edge : SpriteEdge} {u v px py : Nat} (h : pixelPos edge u v = some (px, py)) :
    px < 64 ∧ py < 32 := by
  cases edge <;> simp only [pixelPos, dispW, dispH] at h
  · simp only [Option.some.injEq, Prod.mk.injEq] at h
    omega
  · by_cases hb : u < 64 ∧ v < 32
    · simp only [hb, and_self, if_true, Option.some.injEq, Prod.mk.injEq] at h
      omega
    · simp [hb] at h

/-- One sprite bit leaves memory alone, or toggles one pixel of the display (R182). -/
theorem drawPixel_cases (edge : SpriteEdge) (u v : Nat) (q : Canvas) :
    (pixelPos edge u v = none ∧ drawPixel edge u v q = q) ∨
      ∃ px py, px < 64 ∧ py < 32 ∧ pixelPos edge u v = some (px, py) ∧
        drawPixel edge u v q = (q.1.togglePixel px py, q.2 || q.1.pixel px py) := by
  cases h : pixelPos edge u v with
  | none => exact Or.inl ⟨rfl, by simp [drawPixel, h]⟩
  | some p =>
    obtain ⟨px, py⟩ := p
    exact Or.inr ⟨px, py, (pixelPos_lt h).1, (pixelPos_lt h).2, rfl, by simp [drawPixel, h]⟩

theorem wf_drawPixel (edge : SpriteEdge) (u v : Nat) {q : Canvas} (h : q.1.wf = true) :
    (drawPixel edge u v q).1.wf = true := by
  rcases drawPixel_cases edge u v q with ⟨-, e⟩ | ⟨px, py, -, -, -, e⟩ <;> rw [e]
  · exact h
  · exact Memory.wf_togglePixel px py h

/-- Drawing one sprite bit leaves every byte outside the frame buffer alone. -/
theorem read_drawPixel_outside (edge : SpriteEdge) (u v : Nat) (q : Canvas) {a : Nat}
    (ha : a < 0xF00 ∨ 0x1000 ≤ a) : (drawPixel edge u v q).1.read a = q.1.read a := by
  rcases drawPixel_cases edge u v q with ⟨-, e⟩ | ⟨px, py, hx, hy, -, e⟩ <;> rw [e]
  have := pixelAddress_mem hx hy
  exact Memory.read_togglePixel_other q.1 (by omega)

/-- Drawing a run of columns keeps whatever drawing one pixel keeps. -/
theorem drawColumns_keeps {P : Canvas → Prop} {edge : SpriteEdge}
    (hP : ∀ u v q, P q → P (drawPixel edge u v q)) (b : Byte) (bx v count c : Nat) (q : Canvas)
    (h : P q) : P (drawColumns edge b bx v count c q) := by
  induction count generalizing c q with
  | zero => exact h
  | succ count ih =>
    refine ih _ _ ?_
    split
    · exact hP _ _ _ h
    · exact h

/-- Drawing a run of rows keeps whatever drawing one pixel keeps. -/
theorem drawRows_keeps {P : Canvas → Prop} {edge : SpriteEdge}
    (hP : ∀ u v q, P q → P (drawPixel edge u v q)) (base bx byy count r : Nat) (q : Canvas)
    (h : P q) : P (drawRows edge base bx byy count r q) := by
  induction count generalizing r q with
  | zero => exact h
  | succ count ih => exact ih _ _ (drawColumns_keeps hP _ _ _ _ _ _ h)

/-- The last row may be drawn apart: row `count` is read after the rows before it are drawn (R182). -/
theorem drawRows_succ (edge : SpriteEdge) (base bx byy count r : Nat) (q : Canvas) :
    drawRows edge base bx byy (count + 1) r q =
      drawColumns edge ((drawRows edge base bx byy count r q).1.read (base + (r + count))) bx (byy + (r + count)) 8 0
        (drawRows edge base bx byy count r q) := by
  induction count generalizing r q with
  | zero => rfl
  | succ count ih =>
    rw [drawRows, ih]
    simp only [drawRows, Nat.add_assoc, Nat.add_comm 1 count]

theorem wf_drawRows (edge : SpriteEdge) (base bx byy count r : Nat) {q : Canvas} (h : q.1.wf = true) :
    (drawRows edge base bx byy count r q).1.wf = true :=
  drawRows_keeps (P := fun q => q.1.wf = true) (fun u v _ h => wf_drawPixel edge u v h) _ _ _ _ _ _ h

/-- A sprite changes nothing outside the frame buffer (R57). -/
theorem read_drawRows_outside (edge : SpriteEdge) (base bx byy count r : Nat) (q : Canvas) {a : Nat}
    (ha : a < 0xF00 ∨ 0x1000 ≤ a) : (drawRows edge base bx byy count r q).1.read a = q.1.read a :=
  drawRows_keeps (P := fun q' => q'.1.read a = q.1.read a)
    (fun u v q' h => (read_drawPixel_outside edge u v q' ha).trans h) _ _ _ _ _ _ rfl

/-- A fetch inside memory gives the two bytes at pc (R55, R93). -/
theorem fetchBytes_of_inBounds {s : State} (h : s.pc.toNat + 2 ≤ 4096) :
    fetchBytes s = some [s.mem.read s.pc.toNat, s.mem.read (s.pc.toNat + 1)] := by
  have hb : inBounds s.pc.toNat 2 = true := by simpa [inBounds, memSize] using h
  simp [fetchBytes, hb, Memory.readBytes, List.range_succ]

theorem fetchBytes_of_outOfBounds {s : State} (h : 4096 < s.pc.toNat + 2) : fetchBytes s = none := by
  have hb : ¬ inBounds s.pc.toNat 2 = true := by simp [inBounds, memSize]; omega
  simp [fetchBytes, hb]

/-- Everything a step can do (R90): nothing on a faulted engine, the key-wait service on a waiting one, and on a
running one a fetch fault, an undefined word's fault, or the execute phase of the decoded instruction. -/
theorem step_cases {s t : State} (h : step s = .next t) :
    (∃ x, s.runState = .awaitingKey x ∧ t = keyWaitService x s) ∨
      (s.runState = .running ∧ 4096 < s.pc.toNat + 2 ∧ t = fetchFault s) ∨
      (s.runState = .running ∧ s.pc.toNat + 2 ≤ 4096 ∧ (∃ w, decode (fetchedWord s) = .undefined w) ∧
        t = undefinedFault s) ∨
      (s.runState = .running ∧ s.pc.toNat + 2 ≤ 4096 ∧
        ∃ i, decode (fetchedWord s) = .instr i ∧ exec i (advancePc s) = .next t) := by
  unfold step at h
  split at h
  · cases h
  · rename_i x hx
    exact Or.inl ⟨x, hx, by injection h with h; exact h.symm⟩
  · rename_i hrun
    by_cases hb : s.pc.toNat + 2 ≤ 4096
    · rw [fetchBytes_of_inBounds hb] at h
      simp only [decodeBytes] at h
      change (match decode (fetchedWord s) with
        | .instr i => exec i (advancePc s)
        | .undefined _ => .next (undefinedFault s)
        | .truncated => .next (fetchFault s)) = .next t at h
      split at h
      · rename_i i hi
        exact Or.inr (Or.inr (Or.inr ⟨hrun, hb, i, hi, h⟩))
      · rename_i w hw
        exact Or.inr (Or.inr (Or.inl ⟨hrun, hb, ⟨w, hw⟩, by injection h with h; exact h.symm⟩))
      · rename_i htrunc
        exact absurd htrunc (decode_ne_truncated _)
    · rw [fetchBytes_of_outOfBounds (by omega)] at h
      exact Or.inr (Or.inl ⟨hrun, by omega, by injection h with h; exact h.symm⟩)

end Sys2Proof.Machine
end

