-- ==== Sys2Proof/Laws/Display.lean ====
section
/-! SUPPORT. Pixels and sprite rows: what toggling a pixel does to every pixel, and what drawing one row does to the
display and to the collision flag (44_display.md rules R180, R182, R183). -/

namespace Sys2Proof.Machine

/-- Two pixels of the display that share a byte and a bit are one pixel (R180). -/
theorem pixel_place_injective {px py qx qy : Nat} (hpx : px < 64) (hqx : qx < 64)
    (ha : pixelAddress px py = pixelAddress qx qy) (hb : pixelBit px = pixelBit qx) : px = qx ∧ py = qy := by
  simp only [pixelAddress, pixelBit, fbBase] at ha hb
  omega

/-- Toggling a pixel of the display inverts that pixel and no other (R180). -/
theorem Memory.pixel_togglePixel {m : Memory} (h : m.wf = true) {px py qx qy : Nat} (hpx : px < 64) (hpy : py < 32)
    (hqx : qx < 64) : (m.togglePixel px py).pixel qx qy = (m.pixel qx qy ^^ decide (px = qx ∧ py = qy)) := by
  have hfit : pixelAddress px py < memSize := by
    have := pixelAddress_mem hpx hpy
    simp only [memSize]
    omega
  unfold Memory.togglePixel Memory.pixel
  by_cases ha : pixelAddress qx qy = pixelAddress px py
  · rw [ha, Memory.read_write_same _ h hfit, BitVec.getLsbD_xor, BitVec.getLsbD_twoPow]
    congr 1
    have hlt : pixelBit px < 8 := by simp only [pixelBit]; omega
    by_cases hb : pixelBit px = pixelBit qx
    · have := pixel_place_injective hpx hqx ha.symm hb
      simp [hb ▸ hlt, this]
    · have hne : ¬ (px = qx ∧ py = qy) := fun e => hb (by rw [e.1])
      simp [hb, hne]
  · rw [Memory.read_write_other _ _ ha]
    have hne : ¬ (px = qx ∧ py = qy) := fun e => ha (by rw [e.1, e.2])
    simp [hne]

/-- PixelPos and `landsOn` say the same of a display pixel (R183). -/
theorem pixelPos_eq_some_iff (edge : SpriteEdge) (u v px py : Nat) :
    pixelPos edge u v = some (px, py) ↔ landsOn edge u v px py = true ∧ px < 64 ∧ py < 32 := by
  cases edge
  · simp only [pixelPos, landsOn, dispW, dispH, Option.some.injEq, Prod.mk.injEq, decide_eq_true_eq]
    omega
  · simp only [pixelPos, landsOn, dispW, dispH, decide_eq_true_eq]
    by_cases hb : u < 64 ∧ v < 32
    · simp only [hb, and_self, if_true, Option.some.injEq, Prod.mk.injEq]
      omega
    · simp only [hb, if_false, reduceCtorEq, false_iff]
      omega

/-- Two columns of one row within the width of the display land on different pixels (R182). -/
theorem landsOn_column_unique {edge : SpriteEdge} {bx v c d px py : Nat} (hc : landsOn edge (bx + c) v px py = true)
    (hd : landsOn edge (bx + d) v px py = true) (hcd : c < d + 64) (hdc : d < c + 64) : c = d := by
  cases edge <;> simp only [landsOn, decide_eq_true_eq] at hc hd <;> omega

/-- Some set bit of the columns `c .. c + count - 1` of row `b` lands on `(px, py)`. -/
def columnsHit (edge : SpriteEdge) (b : Byte) (bx v count c px py : Nat) : Prop :=
  ∃ j, c ≤ j ∧ j < c + count ∧ b.getLsbD (7 - j) = true ∧ landsOn edge (bx + j) v px py = true

theorem columnsHit_succ (edge : SpriteEdge) (b : Byte) (bx v count c px py : Nat) :
    columnsHit edge b bx v (count + 1) c px py ↔
      (b.getLsbD (7 - c) = true ∧ landsOn edge (bx + c) v px py = true) ∨
        columnsHit edge b bx v count (c + 1) px py := by
  constructor
  · rintro ⟨j, h1, h2, h3⟩
    by_cases hj : j = c
    · exact Or.inl (hj ▸ h3)
    · exact Or.inr ⟨j, by omega, by omega, h3⟩
  · rintro (h | ⟨j, h1, h2, h3⟩)
    · exact ⟨c, by omega, by omega, h⟩
    · exact ⟨j, by omega, by omega, h3⟩

/-- Drawing one set bit inverts the display pixels it lands on (there is at most one). -/
theorem pixel_drawPixel (edge : SpriteEdge) (u v : Nat) {q : Canvas} (h : q.1.wf = true) {px py : Nat}
    (hx : px < 64) (hy : py < 32) :
    (drawPixel edge u v q).1.pixel px py = (q.1.pixel px py ^^ landsOn edge u v px py) := by
  rcases drawPixel_cases edge u v q with ⟨hn, e⟩ | ⟨qx, qy, hqx, hqy, hs, e⟩
  · have : landsOn edge u v px py = false := by
      by_contra hl
      have := (pixelPos_eq_some_iff edge u v px py).2 ⟨by simpa using hl, hx, hy⟩
      simp [hn] at this
    simp [e, this]
  · have hiff : landsOn edge u v px py = true ↔ qx = px ∧ qy = py := by
      have := pixelPos_eq_some_iff edge u v px py
      rw [hs] at this
      simp only [Option.some.injEq, Prod.mk.injEq, hx, hy, and_true] at this
      exact this.symm
    rw [e, Memory.pixel_togglePixel h hqx hqy hx]
    congr 1
    rw [Bool.eq_iff_iff, hiff, decide_eq_true_eq]

/-- Drawing one set bit collides exactly when it lands on a set display pixel. -/
theorem hit_drawPixel (edge : SpriteEdge) (u v : Nat) (q : Canvas) :
    (drawPixel edge u v q).2 = true ↔
      q.2 = true ∨ ∃ px py, px < 64 ∧ py < 32 ∧ q.1.pixel px py = true ∧ landsOn edge u v px py = true := by
  rcases drawPixel_cases edge u v q with ⟨hn, e⟩ | ⟨qx, qy, hqx, hqy, hs, e⟩ <;> rw [e]
  · refine ⟨Or.inl, ?_⟩
    rintro (h | ⟨px, py, hx, hy, -, hl⟩)
    · exact h
    · have := (pixelPos_eq_some_iff edge u v px py).2 ⟨hl, hx, hy⟩
      simp [hn] at this
  · have hl := ((pixelPos_eq_some_iff edge u v qx qy).1 hs).1
    simp only [Bool.or_eq_true]
    refine or_congr_right ⟨fun h => ⟨qx, qy, hqx, hqy, h, hl⟩, ?_⟩
    rintro ⟨px, py, hx, hy, hp, hl'⟩
    have := (pixelPos_eq_some_iff edge u v px py).2 ⟨hl', hx, hy⟩
    rw [hs, Option.some.injEq, Prod.mk.injEq] at this
    rwa [this.1, this.2]

/-- Drawing columns of one row inverts exactly the display pixels a set bit of them lands on (R182). -/
theorem pixel_drawColumns (edge : SpriteEdge) (b : Byte) (bx v : Nat) {count c : Nat} {q : Canvas}
    (h : q.1.wf = true) (hcount : count ≤ 64) {px py : Nat} (hx : px < 64) (hy : py < 32) :
    ((drawColumns edge b bx v count c q).1.pixel px py = !q.1.pixel px py) ↔
      columnsHit edge b bx v count c px py := by
  induction count generalizing c q with
  | zero =>
    constructor
    · intro e
      simp [drawColumns] at e
    · rintro ⟨j, h1, h2, -⟩
      omega
  | succ count ih =>
    rw [columnsHit_succ, drawColumns]
    split
    · rename_i hbit
      have hstep := ih (c := c + 1) (wf_drawPixel edge (bx + c) v h) (by omega)
      rw [pixel_drawPixel edge (bx + c) v h hx hy] at hstep
      by_cases hl : landsOn edge (bx + c) v px py = true
      · have hrest : ¬ columnsHit edge b bx v count (c + 1) px py := by
          rintro ⟨j, h1, h2, -, hj⟩
          have := landsOn_column_unique hl hj (by omega) (by omega)
          omega
        rw [← hstep, hl] at hrest
        simp only [hbit, hl, and_self, true_or, iff_true]
        rw [Bool.xor_true, Bool.not_not] at hrest
        exact (Bool.eq_not_of_ne hrest)
      · rw [Bool.not_eq_true] at hl
        rw [hl, Bool.xor_false] at hstep
        rw [hstep]
        simp [hl]
    · rename_i hbit
      rw [← ih h (by omega)]
      simp [hbit]

/-- Drawing columns of one row collides exactly when a set bit of them lands on a set display pixel (R182). -/
theorem hit_drawColumns (edge : SpriteEdge) (b : Byte) (bx v : Nat) {count c : Nat} {q : Canvas}
    (h : q.1.wf = true) (hcount : count ≤ 64) :
    (drawColumns edge b bx v count c q).2 = true ↔
      q.2 = true ∨ ∃ px py, px < 64 ∧ py < 32 ∧ q.1.pixel px py = true ∧
        columnsHit edge b bx v count c px py := by
  induction count generalizing c q with
  | zero =>
    refine ⟨Or.inl, ?_⟩
    rintro (h | ⟨_, _, _, _, _, j, h1, h2, -⟩)
    · exact h
    · omega
  | succ count ih =>
    rw [drawColumns]
    split
    · rename_i hbit
      rw [ih (wf_drawPixel edge (bx + c) v h) (by omega), hit_drawPixel, or_assoc]
      refine or_congr_right ?_
      constructor
      · rintro (⟨px, py, hx, hy, hp, hl⟩ | ⟨px, py, hx, hy, hp, hc⟩)
        · exact ⟨px, py, hx, hy, hp, (columnsHit_succ ..).2 (Or.inl ⟨hbit, hl⟩)⟩
        · refine ⟨px, py, hx, hy, ?_, (columnsHit_succ ..).2 (Or.inr hc)⟩
          have hl : landsOn edge (bx + c) v px py = false := by
            by_contra hl
            obtain ⟨j, h1, h2, -, hj⟩ := hc
            have := landsOn_column_unique (by simpa using hl) hj (by omega) (by omega)
            omega
          simpa [pixel_drawPixel edge (bx + c) v h hx hy, hl] using hp
      · rintro ⟨px, py, hx, hy, hp, hc⟩
        by_cases hl : landsOn edge (bx + c) v px py = true
        · exact Or.inl ⟨px, py, hx, hy, hp, hl⟩
        · refine Or.inr ⟨px, py, hx, hy, ?_, ?_⟩
          · simpa [pixel_drawPixel edge (bx + c) v h hx hy, hl] using hp
          · rcases (columnsHit_succ ..).1 hc with ⟨-, hl'⟩ | hc
            · exact absurd hl' hl
            · exact hc
    · rename_i hbit
      rw [ih h (by omega)]
      refine or_congr_right ?_
      simp only [columnsHit_succ, hbit, false_and, false_or, Bool.false_eq_true]

/-- The eight columns of a row are what `rowBit` names. -/
theorem columnsHit_eight (edge : SpriteEdge) (b : Byte) (bx v px py : Nat) :
    columnsHit edge b bx v 8 0 px py ↔ rowBit edge b bx v px py = true := by
  simp only [columnsHit, rowBit, List.any_eq_true, List.mem_range, Bool.and_eq_true, Nat.zero_le, true_and,
    Nat.zero_add]

/-- One whole sprite row: the display is XORed with the row's bits (R182). -/
theorem pixel_drawRow (edge : SpriteEdge) (b : Byte) (bx v : Nat) {q : Canvas} (h : q.1.wf = true) {px py : Nat}
    (hx : px < 64) (hy : py < 32) :
    (drawColumns edge b bx v 8 0 q).1.pixel px py = (q.1.pixel px py ^^ rowBit edge b bx v px py) := by
  have := (pixel_drawColumns edge b bx v (c := 0) h (by omega : 8 ≤ 64) hx hy).trans
    (columnsHit_eight edge b bx v px py)
  cases hb : rowBit edge b bx v px py <;> cases hp : q.1.pixel px py <;> simp_all

/-- One whole sprite row collides exactly when one of its set bits lands on a set display pixel (R182). -/
theorem hit_drawRow (edge : SpriteEdge) (b : Byte) (bx v : Nat) {q : Canvas} (h : q.1.wf = true) :
    (drawColumns edge b bx v 8 0 q).2 = true ↔
      q.2 = true ∨ ∃ px py, px < 64 ∧ py < 32 ∧ q.1.pixel px py = true ∧ rowBit edge b bx v px py = true := by
  rw [hit_drawColumns edge b bx v h (by omega)]
  simp only [columnsHit_eight]

/-- Clearing makes every byte of the frame buffer 0 (R181). -/
theorem read_clearFrameBuffer {m : Memory} (h : m.wf = true) {k : Nat} (hk : k < 256) :
    (clearFrameBuffer m).read (0xF00 + k) = 0 :=
  (Memory.read_writeBytes fbBase (List.replicate fbBytes 0) h (by rw [List.length_replicate]; decide) k
    (by rw [List.length_replicate]; exact hk)).trans (List.getElem_replicate ..)

/-- Clearing leaves every byte outside the frame buffer alone (R181). -/
theorem read_clearFrameBuffer_outside (m : Memory) {a : Nat} (ha : a < 0xF00 ∨ 0x1000 ≤ a) :
    (clearFrameBuffer m).read a = m.read a :=
  Memory.read_writeBytes_outside _ _ _ _ (by rw [List.length_replicate]; exact ha)

theorem wf_clearFrameBuffer {m : Memory} (h : m.wf = true) : (clearFrameBuffer m).wf = true :=
  Memory.wf_writeBytes _ _ h

/-- The shadow's copy of the frame buffer, byte by byte (R186). -/
@[simp] theorem getElem_frameBufferCopy (m : Memory) (k : Nat) (h : k < 256) :
    (frameBufferCopy m)[k] = m.read (0xF00 + k) := by
  simp [frameBufferCopy]

end Sys2Proof.Machine
end

