-- ==== Sys2Proof/Laws/Frame.lean ====
section
/-! SUPPORT. The frames of the shared updates, how a fault in the execute phase reads as `FaultsWith`, and the shape
of a flag-writing ALU operation and of a conditional skip. -/

namespace Sys2Proof.Machine

theorem frame_setV (s : State) (x : Reg) (b : Byte) : Frame [] [x] s (s.setV x b) := by
  refine ⟨fun r hr => State.v_setV_other _ _ _ _ (by simpa using hr), fun p _ => ?_, rfl, rfl⟩
  cases p <;> simp [Part.same]

theorem frame_setV_vf (s : State) (x : Reg) (b c : Byte) : Frame [] [x, 15] s ((s.setV x b).setV vf c) := by
  refine ⟨fun r hr => ?_, fun p _ => ?_, rfl, rfl⟩
  · simp only [List.mem_cons, List.not_mem_nil, or_false, not_or] at hr
    rw [State.v_setV_other _ _ _ _ hr.2, State.v_setV_other _ _ _ _ hr.1]
  · cases p <;> simp [Part.same]

theorem frame_setPc (s : State) (target : Nat) : Frame [.pc] [] s (s.setPc target) := by
  refine ⟨fun r _ => rfl, fun p hp => ?_, rfl, rfl⟩
  cases p <;> simp [Part.same] at *

theorem frame_setI (s : State) (address : Nat) : Frame [.i] [] s (s.setI address) := by
  refine ⟨fun r _ => rfl, fun p hp => ?_, rfl, rfl⟩
  cases p <;> simp [Part.same] at *

theorem frame_mem (s : State) (m : Memory) : Frame [.mem] [] s { s with mem := m } := by
  refine ⟨fun r _ => rfl, fun p hp => ?_, rfl, rfl⟩
  cases p <;> simp [Part.same] at *

/-- A meaning that raises a fault takes it (R223). -/
theorem faultsWith_of_eq {reason : FaultReason} {i : Instr} {s : State} (h : exec i s = faultIn reason i s) :
    FaultsWith reason i s := ⟨_, h, rfl⟩

/-- With neither operand VF a flag-writing ALU operation writes its result and its flag (R132). -/
theorem aluFlag_of_ne {x y : Reg} (i : Instr) (result : Byte) (flag : Bool) (s : State) (hx : x ≠ 15) (hy : y ≠ 15) :
    aluFlag i x y result flag s = .next ((s.setV x result).setV vf (flagByte flag)) := by
  have : namesFlag x y = false := by
    rw [← Bool.not_eq_true, namesFlag_iff]
    tauto
  simp [aluFlag, this]

/-- With an operand VF a flag-writing ALU operation faults (R132). -/
theorem aluFlag_of_eq {x y : Reg} (i : Instr) (result : Byte) (flag : Bool) (s : State) (h : x = 15 ∨ y = 15) :
    aluFlag i x y result flag s = faultIn .flagOperand i s := by
  have : namesFlag x y = true := (namesFlag_iff x y).2 h
  simp [aluFlag, this]

/-- VF is written "with exactly 0 or 1" (R32). -/
theorem toNat_flagByte (flag : Bool) : (flagByte flag).toNat = if flag then 1 else 0 := by
  cases flag <;> rfl

/-- With no key pressed the key-wait service changes nothing (R206). -/
theorem keyWaitService_of_noKey (x : Reg) (s : State) (h : s.keys = 0) : keyWaitService x s = s := by
  have : lowestKey s.keys = none := by
    rw [h]
    decide
  simp only [keyWaitService, this]

end Sys2Proof.Machine
end

