-- ==== Sys2Proof/Laws/Exec.lean ====
section
/-! SUPPORT. Everything an instruction can do, in one lemma: its execute phase raises one of its fault reasons, or it
has its own effect. Whole-machine facts are case analyses over `OwnEffect`. -/

namespace Sys2Proof.Machine

/-- What a skip does when it does not fault: nothing, or pc moves on by two inside memory (R110). -/
def SkipEffect (s t : State) : Prop := t = s ∨ (s.pc.toNat + 2 < 4096 ∧ t = s.setPc (s.pc.toNat + 2))

/-- The next state of each instruction's execute phase when it raises no fault, as an update of the old one. -/
def OwnEffect (i : Instr) (s t : State) : Prop :=
  match i with
  | .cls => ∃ m, m = clearFrameBuffer s.mem ∧ t = { s with mem := m }
  | .ret => 0 < s.sp ∧ (s.stackEntry (s.sp - 1)).toNat < 4096 ∧
      t = { s with sp := s.sp - 1 }.setPc (s.stackEntry (s.sp - 1)).toNat
  | .jp nnn => t = s.setPc nnn.toNat
  | .call nnn => s.sp < 24 ∧
      t = { s with stack := s.stack.setIfInBounds s.sp s.pc, sp := s.sp + 1 }.setPc nnn.toNat
  | .seImm _ _ => SkipEffect s t
  | .sneImm _ _ => SkipEffect s t
  | .seReg _ _ => SkipEffect s t
  | .ldImm x _ => ∃ b, t = s.setV x b
  | .addImm x _ => ∃ b, t = s.setV x b
  | .ldReg x _ => ∃ b, t = s.setV x b
  | .orReg x _ => ∃ b, t = s.setV x b
  | .andReg x _ => ∃ b, t = s.setV x b
  | .xorReg x _ => ∃ b, t = s.setV x b
  | .addReg x _ => ∃ b flag, t = (s.setV x b).setV vf (flagByte flag)
  | .subReg x _ => ∃ b flag, t = (s.setV x b).setV vf (flagByte flag)
  | .shr x _ => ∃ b flag, t = (s.setV x b).setV vf (flagByte flag)
  | .subnReg x _ => ∃ b flag, t = (s.setV x b).setV vf (flagByte flag)
  | .shl x _ => ∃ b flag, t = (s.setV x b).setV vf (flagByte flag)
  | .sneReg _ _ => SkipEffect s t
  | .ldI nnn => t = s.setI nnn.toNat
  | .jpV0 nnn => nnn.toNat + (s.v 0).toNat < 4096 ∧ t = s.setPc (nnn.toNat + (s.v 0).toNat)
  | .rnd x _ => ∃ b, t = { s with draws := s.draws + 1 }.setV x b
  | .drw x y n => s.i.toNat + n < 4096 ∧ ∃ flag,
      t = { s with mem := (drawRows s.params.spriteEdge s.i.toNat (s.v x).toNat (s.v y).toNat n 0
        (s.mem, false)).1 }.setV vf (flagByte flag)
  | .skp _ => SkipEffect s t
  | .sknp _ => SkipEffect s t
  | .ldVxDT x => ∃ b, t = s.setV x b
  | .ldVxK x => t = { s with runState := .awaitingKey x }
  | .ldDTVx x => t = { s with dt := s.v x }
  | .ldSTVx x => t = { s with st := s.v x }
  | .addI x => s.i.toNat + (s.v x).toNat < 4096 ∧ t = s.setI (s.i.toNat + (s.v x).toNat)
  | .ldF x => (s.v x).toNat < 16 ∧ t = s.setI (0x010 + 5 * (s.v x).toNat)
  | .ldB _ => ∃ bs, s.i.toNat + bs.length ≤ 4096 ∧ t = { s with mem := s.mem.writeBytes s.i.toNat bs }
  | .storeRegs _ => ∃ bs, s.i.toNat + bs.length ≤ 4096 ∧ t = { s with mem := s.mem.writeBytes s.i.toNat bs }
  | .loadRegs x => s.i.toNat + x.val + 1 ≤ 4096 ∧
      t = { s with regs := Vector.ofFn fun k : Reg => if k ≤ x then s.mem.read (s.i.toNat + k.val) else s.v k }

/-- Raising one of the reasons the instruction may raise (R221). -/
def RaisesOwnFault (i : Instr) (s t : State) : Prop :=
  ∃ reason ∈ faultReasons i, t = raiseFault reason (executingInfo i s) s

theorem raises_of_faultIn {i : Instr} {s t : State} (reason : FaultReason) (h : faultIn reason i s = .next t)
    (hr : reason ∈ faultReasons i) : RaisesOwnFault i s t :=
  ⟨reason, hr, by injection h with h; exact h.symm⟩

theorem skipIf_effect {c : Bool} {i : Instr} {s t : State} (h : skipIf c i s = .next t)
    (hr : FaultReason.skipOutOfBounds ∈ faultReasons i) : RaisesOwnFault i s t ∨ SkipEffect s t := by
  rcases skipIf_cases h with ⟨-, h⟩ | ⟨-, hlt, h⟩ | ⟨-, -, h⟩
  · exact Or.inr (Or.inl h)
  · exact Or.inr (Or.inr ⟨hlt, h⟩)
  · exact Or.inl ⟨_, hr, h⟩

theorem aluFlag_effect {i : Instr} {x y : Reg} {result : Byte} {flag : Bool} {s t : State}
    (h : aluFlag i x y result flag s = .next t) (hr : FaultReason.flagOperand ∈ faultReasons i) :
    RaisesOwnFault i s t ∨ ∃ b flag, t = (s.setV x b).setV vf (flagByte flag) := by
  rcases aluFlag_cases h with ⟨-, h⟩ | ⟨-, -, h⟩
  · exact Or.inl ⟨_, hr, h⟩
  · exact Or.inr ⟨_, _, h⟩

theorem ret_effect {s t : State} (h : exec .ret s = .next t) : RaisesOwnFault .ret s t ∨ OwnEffect .ret s t := by
  simp only [exec, execRet, memSize] at h
  split at h
  · exact Or.inl (raises_of_faultIn _ h (by simp [faultReasons]))
  · split at h
    · exact Or.inl (raises_of_faultIn _ h (by simp [faultReasons]))
    · exact Or.inr ⟨by omega, by omega, by injection h with h; exact h.symm⟩

theorem call_effect {nnn : Word} {s t : State} (h : exec (.call nnn) s = .next t) :
    RaisesOwnFault (.call nnn) s t ∨ OwnEffect (.call nnn) s t := by
  simp only [exec, execCall, stackCap] at h
  split at h
  · exact Or.inl (raises_of_faultIn _ h (by simp [faultReasons]))
  · exact Or.inr ⟨by omega, by injection h with h; exact h.symm⟩

theorem jpV0_effect {nnn : Word} {s t : State} (h : exec (.jpV0 nnn) s = .next t) :
    RaisesOwnFault (.jpV0 nnn) s t ∨ OwnEffect (.jpV0 nnn) s t := by
  simp only [exec, execJpV0, memSize] at h
  split at h
  · exact Or.inl (raises_of_faultIn _ h (by simp [faultReasons]))
  · exact Or.inr ⟨by omega, by injection h with h; exact h.symm⟩

theorem drw_effect {x y : Reg} {n : Nat} {s t : State} (h : exec (.drw x y n) s = .next t) :
    RaisesOwnFault (.drw x y n) s t ∨ OwnEffect (.drw x y n) s t := by
  simp only [exec, execDrw, memSize] at h
  split at h
  · exact Or.inl (raises_of_faultIn _ h (by simp [faultReasons]))
  · exact Or.inr ⟨by omega, _, by injection h with h; exact h.symm⟩

theorem skp_effect {x : Reg} {s t : State} (h : exec (.skp x) s = .next t) :
    RaisesOwnFault (.skp x) s t ∨ OwnEffect (.skp x) s t := by
  simp only [exec, execSkp] at h
  split at h
  · exact skipIf_effect h (by simp [faultReasons])
  · exact Or.inl (raises_of_faultIn _ h (by simp [faultReasons]))

theorem sknp_effect {x : Reg} {s t : State} (h : exec (.sknp x) s = .next t) :
    RaisesOwnFault (.sknp x) s t ∨ OwnEffect (.sknp x) s t := by
  simp only [exec, execSknp] at h
  split at h
  · exact skipIf_effect h (by simp [faultReasons])
  · exact Or.inl (raises_of_faultIn _ h (by simp [faultReasons]))

theorem addI_effect {x : Reg} {s t : State} (h : exec (.addI x) s = .next t) :
    RaisesOwnFault (.addI x) s t ∨ OwnEffect (.addI x) s t := by
  simp only [exec, execAddI, memSize] at h
  split at h
  · exact Or.inl (raises_of_faultIn _ h (by simp [faultReasons]))
  · exact Or.inr ⟨by omega, by injection h with h; exact h.symm⟩

theorem ldF_effect {x : Reg} {s t : State} (h : exec (.ldF x) s = .next t) :
    RaisesOwnFault (.ldF x) s t ∨ OwnEffect (.ldF x) s t := by
  simp only [exec, execLdF] at h
  split at h
  · rename_i hv
    exact Or.inr ⟨of_decide_eq_true hv, by injection h with h; exact h.symm⟩
  · exact Or.inl (raises_of_faultIn _ h (by simp [faultReasons]))

theorem ldB_effect {x : Reg} {s t : State} (h : exec (.ldB x) s = .next t) :
    RaisesOwnFault (.ldB x) s t ∨ OwnEffect (.ldB x) s t := by
  simp only [exec, execLdB] at h
  split at h
  · rename_i hv
    exact Or.inr ⟨decimalDigits (s.v x), of_decide_eq_true hv, by injection h with h; exact h.symm⟩
  · exact Or.inl (raises_of_faultIn _ h (by simp [faultReasons]))

theorem storeRegs_effect {x : Reg} {s t : State} (h : exec (.storeRegs x) s = .next t) :
    RaisesOwnFault (.storeRegs x) s t ∨ OwnEffect (.storeRegs x) s t := by
  simp only [exec, execStoreRegs] at h
  split at h
  · rename_i hv
    have hv : s.i.toNat + (x.val + 1) ≤ 4096 := of_decide_eq_true hv
    have hx := x.isLt
    refine Or.inr ⟨s.regs.toList.take (x.val + 1), ?_, by injection h with h; exact h.symm⟩
    rw [List.length_take, Vector.length_toList]
    omega
  · exact Or.inl (raises_of_faultIn _ h (by simp [faultReasons]))

theorem loadRegs_effect {x : Reg} {s t : State} (h : exec (.loadRegs x) s = .next t) :
    RaisesOwnFault (.loadRegs x) s t ∨ OwnEffect (.loadRegs x) s t := by
  simp only [exec, execLoadRegs] at h
  split at h
  · rename_i hv
    exact Or.inr ⟨of_decide_eq_true hv, by injection h with h; exact h.symm⟩
  · exact Or.inl (raises_of_faultIn _ h (by simp [faultReasons]))

/-- Everything an instruction can do: one of its own faults, or its own effect. -/
theorem exec_cases {i : Instr} {s t : State} (h : exec i s = .next t) : RaisesOwnFault i s t ∨ OwnEffect i s t := by
  cases i with
  | cls => exact Or.inr ⟨_, rfl, by injection h with h; exact h.symm⟩
  | ret => exact ret_effect h
  | jp => exact Or.inr (by injection h with h; exact h.symm)
  | call => exact call_effect h
  | seImm => exact skipIf_effect h (by simp [faultReasons])
  | sneImm => exact skipIf_effect h (by simp [faultReasons])
  | seReg => exact skipIf_effect h (by simp [faultReasons])
  | ldImm => exact Or.inr ⟨_, by injection h with h; exact h.symm⟩
  | addImm => exact Or.inr ⟨_, by injection h with h; exact h.symm⟩
  | ldReg => exact Or.inr ⟨_, by injection h with h; exact h.symm⟩
  | orReg => exact Or.inr ⟨_, by injection h with h; exact h.symm⟩
  | andReg => exact Or.inr ⟨_, by injection h with h; exact h.symm⟩
  | xorReg => exact Or.inr ⟨_, by injection h with h; exact h.symm⟩
  | addReg => exact aluFlag_effect h (by simp [faultReasons])
  | subReg => exact aluFlag_effect h (by simp [faultReasons])
  | shr => exact aluFlag_effect h (by simp [faultReasons])
  | subnReg => exact aluFlag_effect h (by simp [faultReasons])
  | shl => exact aluFlag_effect h (by simp [faultReasons])
  | sneReg => exact skipIf_effect h (by simp [faultReasons])
  | ldI => exact Or.inr (by injection h with h; exact h.symm)
  | jpV0 => exact jpV0_effect h
  | rnd => exact Or.inr ⟨_, by injection h with h; exact h.symm⟩
  | drw => exact drw_effect h
  | skp => exact skp_effect h
  | sknp => exact sknp_effect h
  | ldVxDT => exact Or.inr ⟨_, by injection h with h; exact h.symm⟩
  | ldVxK => exact Or.inr (by injection h with h; exact h.symm)
  | ldDTVx => exact Or.inr (by injection h with h; exact h.symm)
  | ldSTVx => exact Or.inr (by injection h with h; exact h.symm)
  | addI => exact addI_effect h
  | ldF => exact ldF_effect h
  | ldB => exact ldB_effect h
  | storeRegs => exact storeRegs_effect h
  | loadRegs => exact loadRegs_effect h

/-- An instruction that does not leave the engine faulted has its own effect. -/
theorem ownEffect_of_not_faulted {i : Instr} {s t : State} (h : exec i s = .next t) (hf : t.isFaulted = false) :
    OwnEffect i s t := by
  rcases exec_cases h with ⟨reason, -, rfl⟩ | h
  · cases hf
  · exact h

end Sys2Proof.Machine
end

