-- ==== Sys2Proof/Laws/HostOps.lean ====
section
/-! SUPPORT. What Load does, in one lemma for each of its two ends, and that it keeps memory's canonical form. -/

namespace Sys2Proof.Machine

/-- A Load that succeeds (R251). -/
theorem load_of_fits {image : List Byte} {species : Species} (s : State) (h : loadFits image species = true) :
    load image species s = ({ s with
      mem := (s.mem.writeBytes (loadOffset species) image).writeBytes glyphBase s.params.glyphData.toList }.setPc
        (loadOffset species), true) := by
  rw [load, if_pos h]

/-- A Load that fails (R252). -/
theorem load_of_not_fits {image : List Byte} {species : Species} (s : State) (h : loadFits image species = false) :
    load image species s = (s, false) := by
  rw [load, h]
  rfl

/-- Everything a Load can do to the state (R251, R252). -/
theorem load_cases (image : List Byte) (species : Species) (s : State) :
    (load image species s).1 = s ∨ ∃ m, (s.mem.wf = true → Memory.wf m = true) ∧
      (load image species s).1 = { s with mem := m }.setPc (loadOffset species) := by
  cases h : loadFits image species with
  | false => exact Or.inl (by rw [load_of_not_fits s h])
  | true =>
    exact Or.inr ⟨_, fun hm => Memory.wf_writeBytes _ _ (Memory.wf_writeBytes _ _ hm), by rw [load_of_fits s h]⟩

end Sys2Proof.Machine
end

