-- ==== Sys2Proof/Laws/PerInstr.lean ====
section
/-! SUPPORT. What is said of every instruction as data, one lemma per constructor: the group nibble and the sub-code
of its word are those of its row of the opcode table (30_encoding.md rules R72, R73). -/

namespace Sys2Proof.Laws.Encoding

open Sys2Proof

/-- The word is in group `g` (R72: "Group `G` is the top hex digit"). -/
def InGroup (g : Nat) (w : Word) : Prop := w.toNat / 4096 = g

/-- The word is in group `g` and its low byte is the sub-code `nn`. -/
def HasLowByte (g nn : Nat) (w : Word) : Prop := w.toNat / 4096 = g ∧ w.toNat % 256 = nn

/-- The word is in group `g` and its low nibble is the sub-code `n`. -/
def HasLowNibble (g n : Nat) (w : Word) : Prop := w.toNat / 4096 = g ∧ w.toNat % 16 = n

/-- The fixed bits of each instruction's word, as its row of R72 gives them. -/
def Statement (i : Instr) : Prop :=
  match i with
  | .cls => (encode .cls).toNat = 0x00E0
  | .ret => (encode .ret).toNat = 0x00EE
  | .jp nnn => InGroup 0x1 (encode (.jp nnn))
  | .call nnn => InGroup 0x2 (encode (.call nnn))
  | .seImm x nn => InGroup 0x3 (encode (.seImm x nn))
  | .sneImm x nn => InGroup 0x4 (encode (.sneImm x nn))
  | .seReg x y => HasLowNibble 0x5 0x0 (encode (.seReg x y))
  | .ldImm x nn => InGroup 0x6 (encode (.ldImm x nn))
  | .addImm x nn => InGroup 0x7 (encode (.addImm x nn))
  | .ldReg x y => HasLowNibble 0x8 0x0 (encode (.ldReg x y))
  | .orReg x y => HasLowNibble 0x8 0x1 (encode (.orReg x y))
  | .andReg x y => HasLowNibble 0x8 0x2 (encode (.andReg x y))
  | .xorReg x y => HasLowNibble 0x8 0x3 (encode (.xorReg x y))
  | .addReg x y => HasLowNibble 0x8 0x4 (encode (.addReg x y))
  | .subReg x y => HasLowNibble 0x8 0x5 (encode (.subReg x y))
  | .shr x y => HasLowNibble 0x8 0x6 (encode (.shr x y))
  | .subnReg x y => HasLowNibble 0x8 0x7 (encode (.subnReg x y))
  | .shl x y => HasLowNibble 0x8 0xE (encode (.shl x y))
  | .sneReg x y => HasLowNibble 0x9 0x0 (encode (.sneReg x y))
  | .ldI nnn => InGroup 0xA (encode (.ldI nnn))
  | .jpV0 nnn => InGroup 0xB (encode (.jpV0 nnn))
  | .rnd x nn => InGroup 0xC (encode (.rnd x nn))
  | .drw x y n => InGroup 0xD (encode (.drw x y n))
  | .skp x => HasLowByte 0xE 0x9E (encode (.skp x))
  | .sknp x => HasLowByte 0xE 0xA1 (encode (.sknp x))
  | .ldVxDT x => HasLowByte 0xF 0x07 (encode (.ldVxDT x))
  | .ldVxK x => HasLowByte 0xF 0x0A (encode (.ldVxK x))
  | .ldDTVx x => HasLowByte 0xF 0x15 (encode (.ldDTVx x))
  | .ldSTVx x => HasLowByte 0xF 0x18 (encode (.ldSTVx x))
  | .addI x => HasLowByte 0xF 0x1E (encode (.addI x))
  | .ldF x => HasLowByte 0xF 0x29 (encode (.ldF x))
  | .ldB x => HasLowByte 0xF 0x33 (encode (.ldB x))
  | .storeRegs x => HasLowByte 0xF 0x55 (encode (.storeRegs x))
  | .loadRegs x => HasLowByte 0xF 0x65 (encode (.loadRegs x))

theorem inGroup_gnnn {g : Nat} (nnn : Word) (hg : g < 16) : InGroup g (encodeGNNN g nnn) := by
  simp only [InGroup, encodeGNNN_toNat nnn hg]
  omega

theorem inGroup_gxnn {g : Nat} (x : Reg) (nn : Byte) (hg : g < 16) : InGroup g (encodeGXNN g x nn) := by
  have := x.isLt
  have := nn.isLt
  simp only [InGroup, encodeGXNN_toNat x nn hg]
  omega

theorem inGroup_gxyn {g : Nat} (x y : Reg) (n : Nat) (hg : g < 16) : InGroup g (encodeGXYN g x y n) := by
  have := x.isLt
  have := y.isLt
  simp only [InGroup, encodeGXYN_toNat x y n hg]
  omega

theorem hasLowByte_gxnn {g : Nat} (x : Reg) (nn : Byte) (hg : g < 16) :
    HasLowByte g nn.toNat (encodeGXNN g x nn) := by
  refine ⟨inGroup_gxnn x nn hg, ?_⟩
  have := nn.isLt
  simp only [encodeGXNN_toNat x nn hg]
  omega

theorem hasLowNibble_gxyn {g n : Nat} (x y : Reg) (hg : g < 16) (hn : n < 16) :
    HasLowNibble g n (encodeGXYN g x y n) := by
  refine ⟨inGroup_gxyn x y n hg, ?_⟩
  simp only [encodeGXYN_toNat x y n hg]
  omega

theorem cls : Statement .cls := rfl

theorem ret : Statement .ret := rfl

theorem jp (nnn : Word) : Statement (.jp nnn) := inGroup_gnnn nnn (by decide)

theorem call (nnn : Word) : Statement (.call nnn) := inGroup_gnnn nnn (by decide)

theorem seImm (x : Reg) (nn : Byte) : Statement (.seImm x nn) := inGroup_gxnn x nn (by decide)

theorem sneImm (x : Reg) (nn : Byte) : Statement (.sneImm x nn) := inGroup_gxnn x nn (by decide)

theorem seReg (x y : Reg) : Statement (.seReg x y) := hasLowNibble_gxyn x y (by decide) (by decide)

theorem ldImm (x : Reg) (nn : Byte) : Statement (.ldImm x nn) := inGroup_gxnn x nn (by decide)

theorem addImm (x : Reg) (nn : Byte) : Statement (.addImm x nn) := inGroup_gxnn x nn (by decide)

theorem ldReg (x y : Reg) : Statement (.ldReg x y) := hasLowNibble_gxyn x y (by decide) (by decide)

theorem orReg (x y : Reg) : Statement (.orReg x y) := hasLowNibble_gxyn x y (by decide) (by decide)

theorem andReg (x y : Reg) : Statement (.andReg x y) := hasLowNibble_gxyn x y (by decide) (by decide)

theorem xorReg (x y : Reg) : Statement (.xorReg x y) := hasLowNibble_gxyn x y (by decide) (by decide)

theorem addReg (x y : Reg) : Statement (.addReg x y) := hasLowNibble_gxyn x y (by decide) (by decide)

theorem subReg (x y : Reg) : Statement (.subReg x y) := hasLowNibble_gxyn x y (by decide) (by decide)

theorem shr (x y : Reg) : Statement (.shr x y) := hasLowNibble_gxyn x y (by decide) (by decide)

theorem subnReg (x y : Reg) : Statement (.subnReg x y) := hasLowNibble_gxyn x y (by decide) (by decide)

theorem shl (x y : Reg) : Statement (.shl x y) := hasLowNibble_gxyn x y (by decide) (by decide)

theorem sneReg (x y : Reg) : Statement (.sneReg x y) := hasLowNibble_gxyn x y (by decide) (by decide)

theorem ldI (nnn : Word) : Statement (.ldI nnn) := inGroup_gnnn nnn (by decide)

theorem jpV0 (nnn : Word) : Statement (.jpV0 nnn) := inGroup_gnnn nnn (by decide)

theorem rnd (x : Reg) (nn : Byte) : Statement (.rnd x nn) := inGroup_gxnn x nn (by decide)

theorem drw (x y : Reg) (n : Nat) : Statement (.drw x y n) := inGroup_gxyn x y n (by decide)

theorem skp (x : Reg) : Statement (.skp x) := hasLowByte_gxnn x 0x9E#8 (by decide)

theorem sknp (x : Reg) : Statement (.sknp x) := hasLowByte_gxnn x 0xA1#8 (by decide)

theorem ldVxDT (x : Reg) : Statement (.ldVxDT x) := hasLowByte_gxnn x 0x07#8 (by decide)

theorem ldVxK (x : Reg) : Statement (.ldVxK x) := hasLowByte_gxnn x 0x0A#8 (by decide)

theorem ldDTVx (x : Reg) : Statement (.ldDTVx x) := hasLowByte_gxnn x 0x15#8 (by decide)

theorem ldSTVx (x : Reg) : Statement (.ldSTVx x) := hasLowByte_gxnn x 0x18#8 (by decide)

theorem addI (x : Reg) : Statement (.addI x) := hasLowByte_gxnn x 0x1E#8 (by decide)

theorem ldF (x : Reg) : Statement (.ldF x) := hasLowByte_gxnn x 0x29#8 (by decide)

theorem ldB (x : Reg) : Statement (.ldB x) := hasLowByte_gxnn x 0x33#8 (by decide)

theorem storeRegs (x : Reg) : Statement (.storeRegs x) := hasLowByte_gxnn x 0x55#8 (by decide)

theorem loadRegs (x : Reg) : Statement (.loadRegs x) := hasLowByte_gxnn x 0x65#8 (by decide)

end Sys2Proof.Laws.Encoding
end

