-- ==== Sys2Proof/Machine/Listing.lean ====
section
/-! DEFINITION. The text forms the spec fixes: the assembler text of an instruction and of a listing line
(30_encoding.md rule R78), and the name and code of a fault reason (60_exceptions.md rule R221). Nothing in a step
reads them. -/

namespace Sys2Proof.Machine

/-- One hex digit, upper case (00_scope.md rule R11). -/
def hexDigit (n : Nat) : String := String.ofList [(Nat.digitChar (n % 16)).toUpper]

/-- The low `k` hex digits of a number, most significant first. -/
def hexDigits : Nat → Nat → String
  | 0, _ => ""
  | k + 1, n => hexDigits k (n / 16) ++ hexDigit n

/-- A register operand, V0 to VF. -/
def regText (x : Reg) : String := "V" ++ hexDigit x.val

/-- An immediate operand NN. -/
def byteText (nn : Byte) : String := "0x" ++ hexDigits 2 nn.toNat

/-- An address operand NNN. -/
def addressText (nnn : Word) : String := "0x" ++ hexDigits 3 nnn.toNat

/-- A mnemonic with two operands, "the destination comes first" (R78). -/
def twoOperands (mnemonic a b : String) : String := mnemonic ++ " " ++ a ++ ", " ++ b

/-- The assembler text of an instruction (R73, column "mnemonic"; R78). -/
def instrText : Instr → String
  | .cls => "CLS"
  | .ret => "RET"
  | .jp nnn => "JP " ++ addressText nnn
  | .call nnn => "CALL " ++ addressText nnn
  | .seImm x nn => twoOperands "SE" (regText x) (byteText nn)
  | .sneImm x nn => twoOperands "SNE" (regText x) (byteText nn)
  | .seReg x y => twoOperands "SE" (regText x) (regText y)
  | .ldImm x nn => twoOperands "LD" (regText x) (byteText nn)
  | .addImm x nn => twoOperands "ADD" (regText x) (byteText nn)
  | .ldReg x y => twoOperands "LD" (regText x) (regText y)
  | .orReg x y => twoOperands "OR" (regText x) (regText y)
  | .andReg x y => twoOperands "AND" (regText x) (regText y)
  | .xorReg x y => twoOperands "XOR" (regText x) (regText y)
  | .addReg x y => twoOperands "ADD" (regText x) (regText y)
  | .subReg x y => twoOperands "SUB" (regText x) (regText y)
  | .shr x y => twoOperands "SHR" (regText x) (regText y)
  | .subnReg x y => twoOperands "SUBN" (regText x) (regText y)
  | .shl x y => twoOperands "SHL" (regText x) (regText y)
  | .sneReg x y => twoOperands "SNE" (regText x) (regText y)
  | .ldI nnn => twoOperands "LD" "I" (addressText nnn)
  | .jpV0 nnn => twoOperands "JP" "V0" (addressText nnn)
  | .rnd x nn => twoOperands "RND" (regText x) (byteText nn)
  | .drw x y n => twoOperands "DRW" (regText x) (regText y) ++ ", " ++ hexDigit n
  | .skp x => "SKP " ++ regText x
  | .sknp x => "SKNP " ++ regText x
  | .ldVxDT x => twoOperands "LD" (regText x) "DT"
  | .ldVxK x => twoOperands "LD" (regText x) "K"
  | .ldDTVx x => twoOperands "LD" "DT" (regText x)
  | .ldSTVx x => twoOperands "LD" "ST" (regText x)
  | .addI x => twoOperands "ADD" "I" (regText x)
  | .ldF x => twoOperands "LD" "F" (regText x)
  | .ldB x => twoOperands "LD" "B" (regText x)
  | .storeRegs x => twoOperands "LD" "[I]" (regText x)
  | .loadRegs x => twoOperands "LD" (regText x) "[I]"

/-- A listing line, `address: word  mnemonic` (R78). -/
def listingLine (address : Nat) (i : Instr) : String :=
  "0x" ++ hexDigits 3 address ++ ": " ++ hexDigits 4 (encode i).toNat ++ "  " ++ instrText i

/-- The spec's name of a fault reason (R221). -/
def FaultReason.text : FaultReason → String
  | .pcOutOfBounds => "F_PC_OUT_OF_BOUNDS"
  | .undefinedOpcode => "F_UNDEFINED_OPCODE"
  | .skipOutOfBounds => "F_SKIP_OUT_OF_BOUNDS"
  | .jumpOutOfBounds => "F_JUMP_OUT_OF_BOUNDS"
  | .returnOutOfBounds => "F_RETURN_OUT_OF_BOUNDS"
  | .stackOverflow => "F_STACK_OVERFLOW"
  | .stackUnderflow => "F_STACK_UNDERFLOW"
  | .flagOperand => "F_FLAG_OPERAND"
  | .invalidKey => "F_INVALID_KEY"
  | .memOutOfBounds => "F_MEM_OUT_OF_BOUNDS"

/-- The spec's code of a fault reason (R221, column "code"). -/
def FaultReason.code : FaultReason → Nat
  | .pcOutOfBounds => 1
  | .undefinedOpcode => 2
  | .skipOutOfBounds => 3
  | .jumpOutOfBounds => 4
  | .returnOutOfBounds => 5
  | .stackOverflow => 6
  | .stackUnderflow => 7
  | .flagOperand => 8
  | .invalidKey => 9
  | .memOutOfBounds => 10

end Sys2Proof.Machine
end

