-- ==== Sys2Proof/Tests/Slice0.lean ====
section
/-! SUPPORT. Tests of one step each, on words written out from the opcode map (30_encoding.md rule R73) and on the
vectors of 95_test_vectors.md, named in each comment; and a witness for every statement that has hypotheses. -/

namespace Sys2Proof.Tests

open Sys2Proof Sys2Proof.Machine

/-- The next state of a step, if it answers one. -/
def after (s : State) : Option State :=
  match step s with
  | .next t => some t
  | .fault _ => none
  | .refused _ => none

/-- A running engine whose word at `a` is about to be fetched. -/
def running (a : Nat) (w : Word) : State :=
  { State.reset with pc := BitVec.ofNat 16 a, mem := Memory.writeBytes [] a (bytesOfWord w) }

/-- The same with two registers set. -/
def withV (x y : Reg) (a b : Byte) (s : State) : State := (s.setV x a).setV y b

/-- One ALU vector of section 2.3: V1 = a, V2 = b, VF = 0x55 before; `V1` and `VF` after. -/
def alu (w : Word) (a b : Byte) : Option (Byte × Byte) :=
  (after (withV 1 2 a b ((running 0x200 w).setV 15 0x55))).map fun t => (t.v 1, t.v 15)

/-- What a step records in run_state. -/
def outcome (s : State) : Option RunState := (after s).map fun t => t.runState

/-- One sprite row `b` at 0x300 drawn from `(px, py)` with the given edge policy: two bytes of memory and VF after. -/
def sprite (edge : SpriteEdge) (w : Word) (rows : List Byte) (px py : Byte) (a a' : Nat) :
    Option (Byte × Byte × Byte) :=
  let s := withV 0 1 px py (running 0x200 w)
  let s := { s with i := 0x300, mem := s.mem.writeBytes 0x300 rows, params := { s.params with spriteEdge := edge } }
  (after s).map fun t => (t.mem.read a, t.mem.read a', t.v 15)

/-! ### Well-formedness refuses what has no encoding -/

theorem test_wf_jp_refuses : (Instr.jp 0x1000).wellFormed = false := by decide
theorem test_wf_call_refuses : (Instr.call 0x1000).wellFormed = false := by decide
theorem test_wf_ldI_refuses : (Instr.ldI 0x1000).wellFormed = false := by decide
theorem test_wf_jpV0_refuses : (Instr.jpV0 0x1000).wellFormed = false := by decide
theorem test_wf_drw_refuses : (Instr.drw 0 1 16).wellFormed = false := by decide
theorem test_wf_accepts : (Instr.jp 0xFFF).wellFormed = true ∧ (Instr.drw 15 15 15).wellFormed = true := by decide

/-! ### Decoding, one word for each constructor (R73; fields of R70) -/

theorem test_decode_cls : decode 0x00E0 = .instr .cls := by decide
theorem test_decode_ret : decode 0x00EE = .instr .ret := by decide
theorem test_decode_jp : decode 0x1ABC = .instr (.jp 0xABC) := by decide
theorem test_decode_call : decode 0x2DEF = .instr (.call 0xDEF) := by decide
theorem test_decode_seImm : decode 0x3A12 = .instr (.seImm 0xA 0x12) := by decide
theorem test_decode_sneImm : decode 0x4B34 = .instr (.sneImm 0xB 0x34) := by decide
theorem test_decode_seReg : decode 0x5CD0 = .instr (.seReg 0xC 0xD) := by decide
theorem test_decode_ldImm : decode 0x6E56 = .instr (.ldImm 0xE 0x56) := by decide
theorem test_decode_addImm : decode 0x7F78 = .instr (.addImm 0xF 0x78) := by decide
theorem test_decode_ldReg : decode 0x8120 = .instr (.ldReg 1 2) := by decide
theorem test_decode_orReg : decode 0x8341 = .instr (.orReg 3 4) := by decide
theorem test_decode_andReg : decode 0x8562 = .instr (.andReg 5 6) := by decide
theorem test_decode_xorReg : decode 0x8783 = .instr (.xorReg 7 8) := by decide
theorem test_decode_addReg : decode 0x89A4 = .instr (.addReg 9 0xA) := by decide
theorem test_decode_subReg : decode 0x8BC5 = .instr (.subReg 0xB 0xC) := by decide
theorem test_decode_shr : decode 0x8DE6 = .instr (.shr 0xD 0xE) := by decide
theorem test_decode_subnReg : decode 0x8F07 = .instr (.subnReg 0xF 0) := by decide
theorem test_decode_shl : decode 0x812E = .instr (.shl 1 2) := by decide
theorem test_decode_sneReg : decode 0x9340 = .instr (.sneReg 3 4) := by decide
theorem test_decode_ldI : decode 0xA210 = .instr (.ldI 0x210) := by decide
theorem test_decode_jpV0 : decode 0xB345 = .instr (.jpV0 0x345) := by decide
theorem test_decode_rnd : decode 0xC60F = .instr (.rnd 6 0x0F) := by decide
theorem test_decode_drw : decode 0xD785 = .instr (.drw 7 8 5) := by decide
theorem test_decode_skp : decode 0xE99E = .instr (.skp 9) := by decide
theorem test_decode_sknp : decode 0xEAA1 = .instr (.sknp 0xA) := by decide
theorem test_decode_ldVxDT : decode 0xFB07 = .instr (.ldVxDT 0xB) := by decide
theorem test_decode_ldVxK : decode 0xFC0A = .instr (.ldVxK 0xC) := by decide
theorem test_decode_ldDTVx : decode 0xFD15 = .instr (.ldDTVx 0xD) := by decide
theorem test_decode_ldSTVx : decode 0xFE18 = .instr (.ldSTVx 0xE) := by decide
theorem test_decode_addI : decode 0xFF1E = .instr (.addI 0xF) := by decide
theorem test_decode_ldF : decode 0xF029 = .instr (.ldF 0) := by decide
theorem test_decode_ldB : decode 0xF133 = .instr (.ldB 1) := by decide
theorem test_decode_storeRegs : decode 0xF255 = .instr (.storeRegs 2) := by decide
theorem test_decode_loadRegs : decode 0xF365 = .instr (.loadRegs 3) := by decide

/-- The source's byte order: `A2 10` is the word 0xA210 (R55). -/
theorem test_decode_byte_order : decodeBytes [0xA2, 0x10] = .instr (.ldI 0x210) := by decide

/-- V6: undefined words, one or more of each group that has any. -/
theorem test_decode_undefined :
    [0x0000, 0x0123, 0x00E1, 0x5121, 0x8008, 0x800D, 0x800F, 0x9121, 0xE000, 0xE19F, 0xF000, 0xF130, 0xFFFF].all
      (fun w : Word => decide (decode w = .undefined w)) = true := by decide

/-! ### Fetch (section 2.1) -/

/-- V1: the last word of memory runs and leaves pc at 0x1000. -/
theorem test_fetch_last_word :
    (after (running 0xFFE 0x6001)).map (fun t => (t.v 0, t.pc)) = some (1, 0x1000) := by decide

/-- V2, V3: a fetch at 0x1000 or 0xFFF faults. -/
theorem test_fetch_outside :
    outcome { State.reset with pc := 0x1000 } = some (.faulted .pcOutOfBounds { addr := 0x1000, word := none }) ∧
    outcome { State.reset with pc := 0xFFF } = some (.faulted .pcOutOfBounds { addr := 0xFFF, word := none }) := by
  decide

/-- V4: an odd pc is legal. -/
theorem test_fetch_odd : (after (running 0x201 0x6107)).map (fun t => (t.v 1, t.pc)) = some (7, 0x203) := by decide

/-- V5: the word 0x0000 faults. -/
theorem test_step_undefined : outcome (running 0x200 0x0000) =
    some (.faulted .undefinedOpcode { addr := 0x200, word := some 0x0000 }) := by decide

/-! ### Control flow (section 2.2) -/

/-- C1. -/
theorem test_jp : (after (running 0x200 0x1234)).map State.pc = some 0x234 := by decide

/-- C3. -/
theorem test_call :
    (after (running 0x200 0x2300)).map (fun t => (t.stackEntry 0, t.sp, t.pc)) = some (0x202, 1, 0x300) := by decide

/-- C6. -/
theorem test_call_overflow : outcome { running 0x200 0x2300 with sp := 24 } =
    some (.faulted .stackOverflow { addr := 0x200, word := some 0x2300 }) := by decide

/-- C4. -/
theorem test_ret :
    (after { running 0x300 0x00EE with sp := 1, stack := (Vector.replicate 24 0).set 0 0x202 }).map
      (fun t => (t.pc, t.sp)) = some (0x202, 0) := by decide

/-- C8, C5: a return address of 0x1000, and an empty stack. -/
theorem test_ret_faults :
    outcome { running 0x300 0x00EE with sp := 1, stack := (Vector.replicate 24 0).set 0 0x1000 } =
      some (.faulted .returnOutOfBounds { addr := 0x300, word := some 0x00EE }) ∧
    outcome (running 0x300 0x00EE) = some (.faulted .stackUnderflow { addr := 0x300, word := some 0x00EE }) := by
  decide

/-- C9, C10. -/
theorem test_seImm :
    (after (withV 3 4 0x10 0 (running 0x200 0x3310))).map State.pc = some 0x204 ∧
    (after (withV 3 4 0x10 0 (running 0x200 0x3311))).map State.pc = some 0x202 := by decide

/-- C17, C18: the last legal skip target is 0xFFF. -/
theorem test_skip_bound :
    (after (running 0xFFB 0x3000)).map State.pc = some 0xFFF ∧
    outcome (running 0xFFC 0x3000) = some (.faulted .skipOutOfBounds { addr := 0xFFC, word := some 0x3000 }) := by
  decide

/-- C11. -/
theorem test_sneImm : (after (withV 3 4 0x10 0 (running 0x200 0x4311))).map State.pc = some 0x204 := by decide

/-- C12, and the same word where the registers differ. -/
theorem test_seReg :
    (after (withV 1 2 7 7 (running 0x200 0x5120))).map State.pc = some 0x204 ∧
    (after (withV 1 2 7 8 (running 0x200 0x5120))).map State.pc = some 0x202 := by decide

/-- C13, C15. -/
theorem test_sneReg :
    (after (withV 1 2 7 8 (running 0x200 0x9120))).map State.pc = some 0x204 ∧
    (after (withV 1 2 7 8 (running 0x200 0x9110))).map State.pc = some 0x202 := by decide

/-- C21, C22. -/
theorem test_jpV0 :
    (after (withV 0 1 0xFF 0 (running 0x200 0xBF00))).map State.pc = some 0xFFF ∧
    outcome (withV 0 1 1 0 (running 0x200 0xBFFF)) =
      some (.faulted .jumpOutOfBounds { addr := 0x200, word := some 0xBFFF }) := by decide

/-! ### Registers, ALU and random (section 2.3) -/

/-- A1. -/
theorem test_ldImm : alu 0x6155 0 0 = some (0x55, 0x55) := by decide

/-- A2: no flag on the immediate add. -/
theorem test_addImm : alu 0x71FF 0x01 0 = some (0x00, 0x55) := by decide

/-- A4; A32: assign may name VF. -/
theorem test_ldReg : alu 0x8120 0x10 0x42 = some (0x42, 0x55) ∧ alu 0x8F10 0x33 0 = some (0x33, 0x33) := by decide

/-- A5; A33: OR may name VF, and VF is not cleared. -/
theorem test_orReg : alu 0x8121 0x0C 0x03 = some (0x0F, 0x55) ∧ alu 0x81F1 0xF0 0 = some (0xF5, 0x55) := by decide

/-- A6. -/
theorem test_andReg : alu 0x8122 0x0C 0x06 = some (0x04, 0x55) := by decide

/-- A7, A8. -/
theorem test_xorReg : alu 0x8123 0x0C 0x06 = some (0x0A, 0x55) ∧ alu 0x8113 0x0C 0 = some (0x00, 0x55) := by decide

/-- A10, A11, A12. -/
theorem test_addReg : alu 0x8124 0x7F 0x80 = some (0xFF, 0) ∧ alu 0x8124 0x80 0x80 = some (0x00, 1) ∧
    alu 0x8114 0x90 0 = some (0x20, 1) := by decide

/-- A28. -/
theorem test_addReg_flag : outcome (running 0x200 0x8F14) =
    some (.faulted .flagOperand { addr := 0x200, word := some 0x8F14 }) := by decide

/-- A13, A15. -/
theorem test_subReg : alu 0x8125 5 7 = some (0xFE, 0) ∧ alu 0x8125 9 9 = some (0x00, 1) := by decide

/-- A29. -/
theorem test_subReg_flag : outcome (running 0x200 0x81F5) =
    some (.faulted .flagOperand { addr := 0x200, word := some 0x81F5 }) := by decide

/-- A17, A18, A19. -/
theorem test_subnReg : alu 0x8127 5 7 = some (0x02, 1) ∧ alu 0x8127 7 5 = some (0xFE, 0) ∧
    alu 0x8127 9 9 = some (0x00, 1) := by decide

/-- A20, A21: with Y = 0 the default operand is V1. -/
theorem test_shr : alu 0x8106 0x05 0 = some (0x02, 1) ∧ alu 0x8106 0x80 0 = some (0x40, 0) := by decide

/-- A23, A24. -/
theorem test_shl : alu 0x810E 0x81 0 = some (0x02, 1) ∧ alu 0x810E 0x7F 0 = some (0xFE, 0) := by decide

/-- A26, A27: the operand is V2 where SHIFT_SOURCE = VY. -/
theorem test_shift_source :
    (after { withV 1 2 0 0x03 (running 0x200 0x8126) with params := { defaultParams with shiftSource := .vy } }).map
      (fun t => (t.v 1, t.v 15)) = some (0x01, 1) ∧
    (after { withV 1 2 0 0x81 (running 0x200 0x812E) with params := { defaultParams with shiftSource := .vy } }).map
      (fun t => (t.v 1, t.v 15)) = some (0x02, 1) := by decide

/-- A35: a zero mask gives 0 whatever the draw. -/
theorem test_rnd : (after (running 0x200 0xC300)).map (fun t => t.v 3) = some 0#8 := by
  rw [show (after (running 0x200 0xC300)).map (fun t => t.v 3) = some (Config.drawRandom 0 &&& 0#8) from rfl,
    BitVec.and_zero]

/-- A35: one draw is used, and VF is not written. -/
theorem test_rnd_draws : (after ((running 0x200 0xC300).setV 15 0x55)).map (fun t => (t.draws, t.v 15, t.pc)) =
    some (1, 0x55, 0x202) := by decide

/-! ### Index register and memory (section 2.4) -/

/-- M1. -/
theorem test_ldI : (after (running 0x200 0xA210)).map State.i = some 0x210 := by decide

/-- M3, M4. -/
theorem test_addI :
    (after (withV 2 3 0xFF 0 { running 0x200 0xF21E with i := 0xF00 })).map State.i = some 0xFFF ∧
    outcome (withV 2 3 0xFF 0 { running 0x200 0xF21E with i := 0xF01 }) =
      some (.faulted .memOutOfBounds { addr := 0x200, word := some 0xF21E }) := by decide

/-- M6, M8. -/
theorem test_ldF :
    (after (withV 4 5 0x0F 0 (running 0x200 0xF429))).map State.i = some 0x05B ∧
    outcome (withV 4 5 0x10 0 (running 0x200 0xF429)) =
      some (.faulted .invalidKey { addr := 0x200, word := some 0xF429 }) := by decide

/-- M9, M10. -/
theorem test_ldB :
    (after (withV 5 6 255 0 { running 0x200 0xF533 with i := 0x300 })).map (fun t => t.mem.readBytes 0x300 3) =
      some [2, 5, 5] ∧
    (after (withV 5 6 7 0 { running 0x200 0xF533 with i := 0x300 })).map (fun t => t.mem.readBytes 0x300 3) =
      some [0, 0, 7] := by decide

/-- M13, and M12 beside it. -/
theorem test_ldB_bound :
    outcome { running 0x200 0xF533 with i := 0xFFE } =
      some (.faulted .memOutOfBounds { addr := 0x200, word := some 0xF533 }) ∧
    outcome { running 0x200 0xF533 with i := 0xFFD } = some .running := by decide

/-- M14. -/
theorem test_storeRegs :
    (after ((withV 0 1 1 2 { running 0x200 0xF255 with i := 0x300 }).setV 2 3)).map
      (fun t => (t.mem.readBytes 0x300 4, t.i)) = some ([1, 2, 3, 0], 0x300) := by decide

/-- M17, M16. -/
theorem test_storeRegs_bound :
    (after ({ running 0x200 0xF055 with i := 0xFFF }.setV 0 9)).map (fun t => t.mem.read 0xFFF) = some 9 ∧
    outcome { running 0x200 0xFF55 with i := 0xFF1 } =
      some (.faulted .memOutOfBounds { addr := 0x200, word := some 0xFF55 }) := by decide

/-- M18. -/
theorem test_loadRegs :
    (after { running 0x200 0xF265 with
      i := 0x300, mem := (running 0x200 0xF265).mem.writeBytes 0x300 [2, 5, 5, 9] }).map
      (fun t => (t.v 0, t.v 1, t.v 2, t.v 3, t.i)) = some (2, 5, 5, 0, 0x300) := by decide

/-- M20. -/
theorem test_loadRegs_bound : outcome { running 0x200 0xF165 with i := 0xFFF } =
    some (.faulted .memOutOfBounds { addr := 0x200, word := some 0xF165 }) := by decide

/-! ### Display (section 2.5) -/

/-- D4, on two bytes. -/
theorem test_cls :
    (after { running 0x200 0x00E0 with mem := (running 0x200 0x00E0).mem.writeBytes 0xEFF [1, 2, 3] }).map
      (fun t => t.mem.readBytes 0xEFF 3) = some [1, 0, 0] := by decide +kernel

/-- D7, D8: Wrap, from the right edge and over the bottom; D9, D10: Clip drops what is off the display. -/
theorem test_drw_edges :
    sprite .wrap 0xD011 [0xC0] 63 31 0xFFF 0xFF8 = some (0x01, 0x80, 0) ∧
    sprite .wrap 0xD012 [0x80, 0x80] 0 31 0xFF8 0xF00 = some (0x80, 0x80, 0) ∧
    sprite .clip 0xD011 [0xFF] 60 0 0xF07 0xF00 = some (0x0F, 0, 0) ∧
    sprite .clip 0xD011 [0x80] 70 40 0xF40 0xF00 = some (0, 0, 0) := by decide

/-- D11, D12: collision, and a neighbour that does not collide; D14, D15: the source range I..I+N. -/
theorem test_drw_collision :
    (after { running 0x200 0xD011 with
      i := 0x300, mem := ((running 0x200 0xD011).mem.write 0x300 0x80).write 0xF00 0x80 }).map
      (fun t => (t.mem.read 0xF00, t.v 15)) = some (0x00, 1) ∧
    (after { running 0x200 0xD011 with
      i := 0x300, mem := ((running 0x200 0xD011).mem.write 0x300 0x80).write 0xF00 0x40 }).map
      (fun t => (t.mem.read 0xF00, t.v 15)) = some (0xC0, 0) ∧
    outcome { running 0x200 0xD001 with i := 0xFFE } = some .running ∧
    outcome { running 0x200 0xD001 with i := 0xFFF } =
      some (.faulted .memOutOfBounds { addr := 0x200, word := some 0xD001 }) := by decide

/-- D2, D3: pixel (63, 31) is bit 0 of 0xFFF and pixel (9, 1) is bit 6 of 0xF09. -/
theorem test_pixel_place :
    (pixelAddress 63 31, pixelBit 63) = (0xFFF, 0) ∧ (pixelAddress 9 1, pixelBit 9) = (0xF09, 6) := by decide

/-! ### Keys and timers (section 2.6) -/

/-- K5, K2. -/
theorem test_skp :
    (after (withV 1 2 0x0F 0 { running 0x200 0xE19E with keys := 0x8000 })).map State.pc = some 0x204 ∧
    (after (withV 1 2 5 0 { running 0x200 0xE19E with keys := 0xFFDF })).map State.pc = some 0x202 := by decide

/-- K4. -/
theorem test_skp_invalid : outcome (withV 1 2 0x10 0 (running 0x200 0xE19E)) =
    some (.faulted .invalidKey { addr := 0x200, word := some 0xE19E }) := by decide

/-- K3, and the same with the key pressed. -/
theorem test_sknp :
    (after (withV 1 2 5 0 (running 0x200 0xE1A1))).map State.pc = some 0x204 ∧
    (after (withV 1 2 5 0 { running 0x200 0xE1A1 with keys := 0x0020 })).map State.pc = some 0x202 := by decide

/-- K12. -/
theorem test_ldVxDT : (after { running 0x200 0xF307 with dt := 0x3C }).map (fun t => t.v 3) = some 0x3C := by decide

/-- K6. -/
theorem test_ldVxK :
    (after (withV 3 4 7 0 { running 0x200 0xF30A with keys := 1 })).map (fun t => (t.runState, t.pc, t.v 3)) =
      some (.awaitingKey 3, 0x202, 7) := by decide

/-- K8: the lowest of keys 6 and 8, and pc stays. -/
theorem test_keyWait :
    (after { State.reset with runState := .awaitingKey 3, keys := 0x0140, pc := 0x202 }).map
      (fun t => (t.v 3, t.runState, t.pc)) = some (6, .running, 0x202) := by decide

/-- K13. -/
theorem test_ldDTVx : (after (withV 3 4 0x3C 0 (running 0x200 0xF315))).map State.dt = some 0x3C := by decide

/-- K14. -/
theorem test_ldSTVx : (after (withV 3 4 2 0 (running 0x200 0xF318))).map State.st = some 2 := by decide

/-- K15, K16, K17. -/
theorem test_tick :
    (tick State.reset).dt = 0 ∧ (tick { State.reset with dt := 1, st := 0x80 }).dt = 0 ∧
    (tick { State.reset with dt := 1, st := 0x80 }).st = 0x7F ∧
    (tick { State.reset with dt := 3, runState := .awaitingKey 0 }).dt = 2 := by decide

/-! ### Load and the text forms -/

/-- L6 and the entry points of R254. -/
theorem test_load :
    ((load [0x12, 0x00] .primary State.reset).1.pc, (load [0x12, 0x00] .primary State.reset).1.mem.readBytes 0x010 5) =
      (0x200, [0xF0, 0x90, 0x90, 0x90, 0xF0]) ∧
    (load [0x12, 0x00] .alternate State.reset).1.pc = 0x600 := by decide

/-- L1, L2, L3, L4. -/
theorem test_load_size :
    loadFits (List.replicate 3583 0) .primary = true ∧ loadFits (List.replicate 3584 0) .primary = false ∧
    loadFits (List.replicate 2559 0) .alternate = true ∧ loadFits (List.replicate 2560 0) .alternate = false := by
  simp only [loadFits, loadOffset, List.length_replicate]
  decide

/-- Lines of the listings of programs P2 and P3. -/
theorem test_listing :
    listingLine 0x200 (.ldImm 0xA 0x9C) = "0x200: 6A9C  LD VA, 0x9C" ∧
    listingLine 0x208 (.drw 0 1 5) = "0x208: D015  DRW V0, V1, 5" := by decide

/-- The last code of R221. -/
theorem test_fault_code : FaultReason.memOutOfBounds.code = 10 := by decide

/-! ### Witnesses: for every statement with hypotheses, inputs that meet all of them, at the clauses' boundaries -/

/-- A faulted engine. -/
def faulted : State := { State.reset with runState := .faulted .stackOverflow { addr := 0x200, word := some 0x2200 } }

/-- An engine waiting for a key to put into V3. -/
def waiting (keys : BitVec 16) : State := { State.reset with runState := .awaitingKey 3, keys := keys }

/-- A stack full of the return address `a`, of height `sp`. -/
def stacked (sp : Nat) (a : Word) : State := { State.reset with sp := sp, stack := Vector.replicate 24 a }

/-- I and V1 set. -/
def indexed (i : Word) (b : Byte) : State := { State.reset with i := i }.setV 1 b

theorem witness_DecodeOfEncode : ∃ i : Instr, i.wellFormed = true := ⟨.drw 15 0 15, by decide⟩

theorem witness_EncodeOfDecode : ∃ w i, decode w = .instr i := ⟨0xF265, .loadRegs 2, by decide⟩

/-- Each clause of the table, at its edges, and a defined word of group 8 between two undefined ones. -/
theorem witness_UndefinedWordsByGroup :
    decode 0x00DF = .undefined 0x00DF ∧ decode 0x5001 = .undefined 0x5001 ∧ decode 0x8008 = .undefined 0x8008 ∧
    decode 0x800D = .undefined 0x800D ∧ decode 0x800E ≠ .undefined 0x800E ∧ decode 0x800F = .undefined 0x800F ∧
    decode 0x900F = .undefined 0x900F ∧ decode 0xE09F = .undefined 0xE09F ∧ decode 0xF066 = .undefined 0xF066 := by
  decide

theorem witness_StepRunsDecodedInstruction : ∃ (s : State) (w : Word) (i : Instr),
    s.runState = .running ∧ s.pc.toNat + 2 = 4096 ∧
    w.toNat = (s.mem.read s.pc.toNat).toNat * 256 + (s.mem.read (s.pc.toNat + 1)).toNat ∧ decode w = .instr i :=
  ⟨running 0xFFE 0x6001, 0x6001, .ldImm 0 1, by decide⟩

theorem witness_UndefinedWordFaults : ∃ (s : State) (w : Word),
    s.runState = .running ∧ s.pc.toNat + 2 = 4096 ∧
    w.toNat = (s.mem.read s.pc.toNat).toNat * 256 + (s.mem.read (s.pc.toNat + 1)).toNat ∧ decode w = .undefined w :=
  ⟨running 0xFFE 0x00E1, 0x00E1, by decide⟩

theorem witness_FetchFaultsExactlyOutsideMemory :
    (∃ s : State, s.runState = .running ∧ s.pc.toNat = 4095) ∧
    ∃ s : State, s.runState = .running ∧ s.pc.toNat = 4094 ∧ (after s).isSome = true :=
  ⟨⟨{ State.reset with pc := 0xFFF }, by decide⟩, running 0xFFE 0x6001, by decide⟩

theorem witness_FaultedEngineHasNoStep : ∃ (s : State) (reason : FaultReason) (info : FaultInfo),
    s.runState = .faulted reason info := ⟨faulted, _, _, rfl⟩

/-- No key, and the lowest and the highest key. -/
theorem witness_KeyWaitTakesLowestKey :
    (waiting 0).runState = .awaitingKey 3 ∧ (waiting 0).keys = 0 ∧
    ((waiting 0x8001).keys.getLsbD (0 : Reg).val = true ∧
      ∀ j : Reg, j < 0 → (waiting 0x8001).keys.getLsbD j.val = false) ∧
    (waiting 0x8000).keys.getLsbD (15 : Reg).val = true ∧
      ∀ j : Reg, j < 15 → (waiting 0x8000).keys.getLsbD j.val = false := by decide

/-- A step that goes on, a step that faults, an engine with no step, and a waiting engine. -/
theorem witness_BatchesLatchKeysAndAddUp :
    (∃ s t : State, s.isFaulted = false ∧ step s = .next t ∧ t.isFaulted = false) ∧
    (∃ s t : State, step s = .next t ∧ t.isFaulted = true) ∧
    (∃ (s : State) (f : Fault), step s = .fault f) ∧ ∃ (s : State) (x : Reg), s.runState = .awaitingKey x :=
  ⟨⟨running 0x200 0x1234, _, rfl, rfl, rfl⟩, ⟨State.reset, _, rfl, rfl⟩, ⟨faulted, _, rfl⟩, waiting 0, 3, rfl⟩

/-- K8, the batch of one step that ends a key wait, and K7 with one step: no key, no change. -/
theorem test_stepBatch :
    ((stepBatch 1 0x0140 (waiting 0)).v 3, (stepBatch 1 0x0140 (waiting 0)).runState,
      (stepBatch 1 0x0140 (waiting 0)).pc, (stepBatch 1 0x0140 (waiting 0)).keys) = (6, .running, 0, 0x0140) ∧
    stepBatch 1 0 (waiting 0) = waiting 0 := ⟨by decide, rfl⟩

theorem witness_SelfJumpLoopsForever : ∃ s : State, s.runState = .running ∧ s.pc.toNat + 2 ≤ 4096 ∧
    decodeBytes [s.mem.read s.pc.toNat, s.mem.read (s.pc.toNat + 1)] = .instr (.jp s.pc) :=
  ⟨running 0x200 0x1200, by decide⟩

theorem witness_CallPushesAndJumps : (∃ s : State, s.sp < 24 ∧ s.sp + 1 = 24) ∧ ∃ s : State, s.sp = 24 :=
  ⟨⟨stacked 23 0x202, by decide⟩, stacked 24 0x202, rfl⟩

theorem witness_ReturnPopsOrFaults :
    (∃ s : State, s.sp = 0) ∧ (∃ s : State, 0 < s.sp ∧ (s.stackEntry (s.sp - 1)).toNat = 4096) ∧
    ∃ s : State, 0 < s.sp ∧ (s.stackEntry (s.sp - 1)).toNat = 4095 :=
  ⟨⟨State.reset, rfl⟩, ⟨stacked 1 0x1000, by decide⟩, stacked 24 0xFFF, by decide⟩

theorem witness_CallThenReturnRestoresPc : ∃ s : State, s.sp < 24 ∧ s.pc.toNat < 4096 ∧
    ∃ t u : State, exec (.call 0x300) s = .next t ∧ u.sp = t.sp ∧ u.stack = t.stack :=
  ⟨{ stacked 23 0x202 with pc := 0xFFF }, by decide, by decide, _, _, rfl, rfl, rfl⟩

/-- A condition that holds at both sides of the bound, and one that fails. -/
theorem witness_SkipsOnRegisterComparison :
    (State.reset.v 1 = 0 ∧ ({ State.reset with pc := 0xFFD }).pc.toNat + 2 = 4095) ∧
    ({ State.reset with pc := 0xFFE }).pc.toNat + 2 = 4096 ∧ ¬ State.reset.v 1 = 1 := by decide

theorem witness_JumpWithOffsetAddsV0 :
    (∃ (nnn : Word) (s : State), nnn.toNat + (s.v 0).toNat = 4095) ∧
    ∃ (nnn : Word) (s : State), nnn.toNat + (s.v 0).toNat = 4096 :=
  ⟨⟨0xF00, State.reset.setV 0 0xFF, by decide⟩, 0xF80, State.reset.setV 0 0x80, by decide⟩

/-- AddSetsCarry, SubtractSetsNotBorrow. -/
theorem witness_notFlagOperands : ∃ x y : Reg, x ≠ 15 ∧ y ≠ 15 := ⟨14, 0, by decide⟩

/-- Both values of SHIFT_SOURCE. -/
theorem witness_ShiftsMoveOneBit :
    (∃ (s : State) (src : Nat), s.params.shiftSource = .vx ∧ src = (match s.params.shiftSource with
      | .vx => (s.v 1).toNat
      | .vy => (s.v 2).toNat) ∧ src = 0x81) ∧
    ∃ (s : State) (src : Nat), s.params.shiftSource = .vy ∧ src = (match s.params.shiftSource with
      | .vx => (s.v 1).toNat
      | .vy => (s.v 2).toNat) ∧ src = 0x81 :=
  ⟨⟨State.reset.setV 1 0x81, 0x81, by decide⟩,
    { State.reset with params := { defaultParams with shiftSource := .vy } }.setV 2 0x81, 0x81, by decide⟩

theorem witness_FlagRegisterOperandFaults :
    (∃ x y : Reg, (x = 15 ∨ y = 15) ∧ x ≠ 15) ∧ ∃ x y : Reg, (x = 15 ∨ y = 15) ∧ y ≠ 15 :=
  ⟨⟨0, 15, by decide⟩, 15, 0, by decide⟩

theorem witness_RandomIsMaskedDraw : ∃ (nn : Byte) (k : Nat), nn.getLsbD k = false := ⟨0x0F, 4, by decide⟩

theorem witness_AddToIndexOrFaults :
    (indexed 0xF00 0xFF).i.toNat + ((indexed 0xF00 0xFF).v 1).toNat = 4095 ∧
    (indexed 0xF01 0xFF).i.toNat + ((indexed 0xF01 0xFF).v 1).toNat = 4096 := by decide

/-- GlyphAddressOrFaults, KeySkipsTestOneKey. -/
theorem witness_index_bound : ((indexed 0 15).v 1).toNat < 16 ∧ 16 ≤ ((indexed 0 16).v 1).toNat := by decide

/-- KeySkipsTestOneKey: key 15 pressed, and not pressed. -/
theorem witness_KeySkipsTestOneKey :
    ({ indexed 0 15 with keys := 0x8000 }).keys.getLsbD ((indexed 0 15).v 1).toNat = true ∧
    (indexed 0 15).keys.getLsbD ((indexed 0 15).v 1).toNat = false := by decide

theorem witness_DecimalDigitsAreStored :
    (indexed 0xFFD 255).mem.wf = true ∧ (indexed 0xFFD 255).i.toNat + 3 = 4096 ∧
    4096 < (indexed 0xFFE 255).i.toNat + 3 := by decide

/-- RegistersAreStored, RegistersAreLoaded, StoreThenLoadRestoresRegisters. -/
theorem witness_block_bound :
    (indexed 0xFF0 1).mem.wf = true ∧ (indexed 0xFF0 1).i.toNat + (15 : Reg).val + 1 = 4096 ∧
    4096 < (indexed 0xFF1 1).i.toNat + (15 : Reg).val + 1 := by decide

theorem witness_StoreThenLoadRestoresRegisters : ∃ (s t u : State), s.mem.wf = true ∧
    s.i.toNat + (0 : Reg).val + 1 = 4096 ∧ exec (.storeRegs 0) s = .next t ∧ u.mem = t.mem ∧ u.i = s.i :=
  ⟨indexed 0xFFF 1, _, _, by decide, by decide, rfl, rfl, rfl⟩

theorem witness_ClearZeroesFrameBuffer : ∃ s : State, s.mem.wf = true ∧ s.mem.pixel 0 0 = true :=
  ⟨{ State.reset with mem := [(0xF00, 0x80)] }, by decide⟩

theorem witness_DrawCompletesOrFaults :
    (indexed 0xFFE 0).i.toNat + 1 = 4095 ∧ (indexed 0xFFF 0).i.toNat + 1 = 4096 := by decide

theorem witness_DrawIsRowByRow : ∃ (n : Nat) (s : State), s.mem.wf = true ∧ n + 1 = 15 ∧ s.i.toNat + n + 1 = 4095 :=
  ⟨14, indexed 0xFF0 0, by decide⟩

/-- DrawXorsWholeSprite, DoubleDrawRestoresDisplay: the last source byte lies just below the frame buffer. -/
theorem witness_whole_sprite : ∃ (x y : Reg) (n : Nat) (s : State), s.mem.wf = true ∧ n = 15 ∧
    s.i.toNat + n = 0xF00 ∧ x ≠ 15 ∧ y ≠ 15 :=
  ⟨0, 1, 15, indexed 0xEF1 0, by decide⟩

/-- DoubleDrawRestoresDisplay: a set sprite bit does land on a pixel that was 0, and one misses every set pixel. -/
theorem witness_DoubleDrawRestoresDisplay :
    let s : State := { indexed 0x300 0 with mem := [(0x300, 0x80)] }
    s.mem.pixel 0 0 = false ∧ spriteBit s 0 1 1 0 0 = true ∧ spriteBit s 0 1 1 1 0 = false := by decide

/-- RedrawQueryComparesShadow, CommitCopiesFrameBuffer, QueriesReturnState: an engine that is not faulted, with the last
byte of the frame buffer as in the shadow, and not (D17, D18). -/
theorem witness_queries :
    (State.reset.isFaulted = false ∧ State.reset.shadow[255] = State.reset.mem.read 0xFFF) ∧
    ∃ s : State, s.isFaulted = false ∧ s.shadow[255] ≠ s.mem.read 0xFFF ∧ 0 < s.st.toNat :=
  ⟨by decide, { State.reset with mem := [(0xFFF, 1)], st := 1 }, by decide⟩

theorem witness_TickCountsTimersDown :
    faulted.isFaulted = true ∧ State.reset.isFaulted = false ∧ (waiting 0).isFaulted = false := by decide

/-- FlagRegisterWriters: an instruction that writes VF implicitly, and one that neither does nor names it. -/
theorem witness_FlagRegisterWriters :
    (∃ (i : Instr) (s t : State), exec i s = .next t ∧ t.isFaulted = false ∧ writesFlag i = true) ∧
    ∃ (i : Instr) (s t : State), exec i s = .next t ∧ t.isFaulted = false ∧ writesFlag i = false ∧
      namesFlagAsDestination i = false :=
  ⟨⟨.addReg 0 1, State.reset, _, rfl, rfl, rfl⟩, .ldReg 0 1, State.reset, _, rfl, rfl, rfl, rfl⟩

/-- IndexWriters, StackWriters, MemoryWriters and the first clause of TimerWriters, by one load of an immediate. -/
theorem witness_writers : ∃ (i : Instr) (s t : State), exec i s = .next t ∧ t.isFaulted = false ∧
    (∀ nnn, i ≠ .ldI nnn) ∧ (∀ x, i ≠ .addI x) ∧ (∀ x, i ≠ .ldF x) ∧ (∀ nnn, i ≠ .call nnn) ∧ i ≠ .ret ∧
    (∀ x, i ≠ .ldDTVx x) ∧ (∀ x, i ≠ .ldSTVx x) ∧ i ≠ .cls ∧ (∀ x y n, i ≠ .drw x y n) ∧ (∀ x, i ≠ .ldB x) ∧
    ∀ x, i ≠ .storeRegs x :=
  ⟨.ldImm 0 1, State.reset, _, rfl, rfl, by simp⟩

/-- StackWriters: RET, which the first clause covers. -/
theorem witness_StackWriters : ∃ (s t : State), exec .ret s = .next t ∧ t.isFaulted = false :=
  ⟨stacked 1 0x202, _, rfl, rfl⟩

/-- TimerWriters: a key-wait step. -/
theorem witness_TimerWriters : ∃ (s t : State) (x : Reg), s.runState = .awaitingKey x ∧ step s = .next t :=
  ⟨waiting 1, _, 3, rfl, rfl⟩

/-- StepsLeaveHostStateAlone: the two ways run_state changes. -/
theorem witness_StepsLeaveHostStateAlone :
    (outcome (running 0x200 0xF30A) = some (.awaitingKey 3)) ∧ outcome (waiting 1) = some .running := by decide

theorem witness_FaultReasonsByInstruction : ∃ (i : Instr) (s t : State) (reason : FaultReason) (info : FaultInfo),
    s.isFaulted = false ∧ exec i s = .next t ∧ t.runState = .faulted reason info :=
  ⟨.ret, State.reset, _, _, _, rfl, rfl, rfl⟩

/-- FaultRecordsAddressAndWord: a fault with a word, and one without. -/
theorem witness_FaultRecordsAddressAndWord :
    outcome (running 0x300 0x00EE) = some (.faulted .stackUnderflow { addr := 0x300, word := some 0x00EE }) ∧
    outcome { State.reset with pc := 0xFFF } = some (.faulted .pcOutOfBounds { addr := 0xFFF, word := none }) := by
  decide

/-- StepKeepsInvariant, HostOperationsKeepInvariant: a state that meets the invariant and steps. -/
theorem witness_StepKeepsInvariant : ∃ s t : State, s.Inv ∧ step s = .next t :=
  ⟨running 0x200 0x1234, _, ⟨by decide, fun _ => ⟨by decide, by decide, by decide, fun k => by
    have : (running 0x200 0x1234).stackEntry k = 0 := by
      simp only [State.stackEntry, running, State.reset, Vector.getElem?_replicate]
      split <;> rfl
    rw [this]
    decide⟩⟩, rfl⟩

theorem witness_ReachableStatesMeetInvariant : ∃ s : State, Reachable s ∧ s.pc = 0x200 :=
  ⟨_, ⟨[.load [0x12, 0x00] .primary], rfl⟩, by decide⟩

/-- LoadPlacesImageAndGlyphs: the largest images that fit, and LoadFailureChangesNothing: the smallest that do not. -/
theorem witness_load_size :
    State.reset.mem.wf = true ∧ State.reset.isFaulted = false ∧
    (List.replicate 3583 (0 : Byte)).length + 0x200 < 4096 ∧ (List.replicate 2559 (0 : Byte)).length + 0x600 < 4096 ∧
    4096 ≤ (List.replicate 3584 (0 : Byte)).length + 0x200 ∧
    4096 ≤ (List.replicate 2560 (0 : Byte)).length + 0x600 := by
  simp only [List.length_replicate]
  decide

/-- LoadedImageRunsFromEntry, at both offsets. -/
theorem witness_LoadedImageRunsFromEntry : ∃ (hi lo : Byte) (rest : List Byte) (s : State) (i : Instr),
    s.mem.wf = true ∧ s.runState = .running ∧ rest.length + 2 + 0x200 < 4096 ∧ rest.length + 2 + 0x600 < 4096 ∧
    decode (BitVec.ofNat 16 (hi.toNat * 256 + lo.toNat)) = .instr i :=
  ⟨0x12, 0x00, [], State.reset, .jp 0x200, by decide⟩

end Sys2Proof.Tests
end

section
/-! Control flow (41_control_flow.md): what the jump does, and the obligation about it. -/

namespace Sys2Proof.Machine

/-- JP answers a next state in every state: no check guards it (R112). -/
theorem exec_jp (nnn : Word) (s : State) : exec (.jp nnn) s = .next (s.setPc nnn.toNat) := rfl

/-- pc set to an address that is a machine word already is that word: nothing is cut off. -/
theorem State.setPc_toNat_pc (nnn : Word) (s : State) : (s.setPc nnn.toNat).pc = nnn := by
  rw [State.setPc_pc, BitVec.ofNat_toNat, BitVec.setWidth_eq]

/-- Settles O11: JP is one update of pc, whose frame is that of `State.setPc`. -/
theorem jumpGoesToAddress : Obligations.JumpGoesToAddress := by
  unfold Obligations.JumpGoesToAddress
  intro nnn s
  exact ⟨s.setPc nnn.toNat, exec_jp nnn s, State.setPc_toNat_pc nnn s, frame_setPc s nnn.toNat⟩

end Sys2Proof.Machine
end

section
/-! Register loads and the immediate add (42_register_alu.md): what the two do, and the obligation about them. -/

namespace Sys2Proof.Machine

/-- The sum modulo 256 fits a byte, so the byte made of it has that value (R131). -/
@[simp] theorem toNat_addResult (a b : Byte) : (addResult a b).toNat = (a.toNat + b.toNat) % 256 := by
  rw [addResult, BitVec.toNat_ofNat]
  exact Nat.mod_mod _ 256

/-- LD Vx, NN answers a next state in every state (R130). -/
theorem exec_ldImm (x : Reg) (nn : Byte) (s : State) : exec (.ldImm x nn) s = .next (s.setV x nn) := rfl

/-- ADD Vx, NN answers a next state in every state, on overflow too (R131). -/
theorem exec_addImm (x : Reg) (nn : Byte) (s : State) :
    exec (.addImm x nn) s = .next (s.setV x (addResult (s.v x) nn)) := rfl

/-- Settles O18: each of the two is one write of V[X], whose frame is that of `State.setV`; the value the add writes is
`addResult`, the sum modulo 256. -/
theorem immediateLoadAndAdd : Obligations.ImmediateLoadAndAdd := by
  unfold Obligations.ImmediateLoadAndAdd
  intro x nn s
  constructor
  · exact ⟨s.setV x nn, exec_ldImm x nn s, State.v_setV_same s x nn, frame_setV s x nn⟩
  · have hsum : ((s.setV x (addResult (s.v x) nn)).v x).toNat = ((s.v x).toNat + nn.toNat) % 256 := by
      rw [State.v_setV_same, toNat_addResult]
    exact ⟨s.setV x (addResult (s.v x) nn), exec_addImm x nn s, hsum, frame_setV s x _⟩

end Sys2Proof.Machine
end

section
/-! Index and memory (43_index_memory.md): what the load of I does, and the obligation about it. -/

namespace Sys2Proof.Machine

/-- LD I, NNN answers a next state in every state: no check guards it (R160). -/
theorem exec_ldI (nnn : Word) (s : State) : exec (.ldI nnn) s = .next (s.setI nnn.toNat) := rfl

/-- I set to an address that is a machine word already is that word: nothing is cut off. -/
theorem State.setI_toNat_i (nnn : Word) (s : State) : (s.setI nnn.toNat).i = nnn := by
  rw [State.setI_i, BitVec.ofNat_toNat, BitVec.setWidth_eq]

/-- Settles O25: LD I is one update of I, whose frame is that of `State.setI`. -/
theorem loadIndexImmediate : Obligations.LoadIndexImmediate := by
  unfold Obligations.LoadIndexImmediate
  intro nnn s
  exact ⟨s.setI nnn.toNat, exec_ldI nnn s, State.setI_toNat_i nnn s, frame_setI s nnn.toNat⟩

end Sys2Proof.Machine
end

section
/-! Keys and timers (45_keys_timers.md): what the timer accesses and the key wait do, and the obligations about them. -/

namespace Sys2Proof.Machine

/-- LD Vx, DT answers a next state in every state: it is one register write (R202). -/
theorem exec_ldVxDT (x : Reg) (s : State) : exec (.ldVxDT x) s = .next (s.setV x s.dt) := rfl

/-- LD DT, Vx answers a next state in every state (R203). -/
theorem exec_ldDTVx (x : Reg) (s : State) : exec (.ldDTVx x) s = .next { s with dt := s.v x } := rfl

/-- LD ST, Vx answers a next state in every state (R204). -/
theorem exec_ldSTVx (x : Reg) (s : State) : exec (.ldSTVx x) s = .next { s with st := s.v x } := rfl

/-- LD Vx, K answers a next state in every state: it reads no key (R205). -/
theorem exec_ldVxK (x : Reg) (s : State) : exec (.ldVxK x) s = .next { s with runState := .awaitingKey x } := rfl

theorem frame_dt (s : State) (b : Byte) : Frame [.dt] [] s { s with dt := b } := by
  refine ⟨fun _ _ => rfl, fun p hp => ?_, rfl, rfl⟩
  cases p <;> simp [Part.same] at hp ⊢

theorem frame_st (s : State) (b : Byte) : Frame [.st] [] s { s with st := b } := by
  refine ⟨fun _ _ => rfl, fun p hp => ?_, rfl, rfl⟩
  cases p <;> simp [Part.same] at hp ⊢

theorem frame_runState (s : State) (r : RunState) : Frame [.runState] [] s { s with runState := r } := by
  refine ⟨fun _ _ => rfl, fun p hp => ?_, rfl, rfl⟩
  cases p <;> simp [Part.same] at hp ⊢

/-- Sound is on exactly while ST is above 0 (R230). -/
theorem soundOn_iff (s : State) : soundOn s = true ↔ 0 < s.st.toNat := decide_eq_true_iff

/-- Settles O41: each access is one update, whose frame names the piece of state it writes; sound follows ST at once. -/
theorem timerAccessCopies : Obligations.TimerAccessCopies := by
  unfold Obligations.TimerAccessCopies
  intro x s
  refine ⟨?readDelay, ?writeDelay, ?writeSound⟩
  case readDelay => exact ⟨s.setV x s.dt, exec_ldVxDT x s, State.v_setV_same s x s.dt, frame_setV s x s.dt⟩
  case writeDelay => exact ⟨{ s with dt := s.v x }, exec_ldDTVx x s, rfl, frame_dt s (s.v x)⟩
  case writeSound =>
    exact ⟨{ s with st := s.v x }, exec_ldSTVx x s, rfl, soundOn_iff { s with st := s.v x }, frame_st s (s.v x)⟩

/-- Settles O42: the wait is entered by one update of the run state, whatever KEYS holds. -/
theorem awaitKeyEntersWait : Obligations.AwaitKeyEntersWait := by
  unfold Obligations.AwaitKeyEntersWait
  intro x s
  exact ⟨{ s with runState := .awaitingKey x }, exec_ldVxK x s, rfl, frame_runState s (.awaitingKey x)⟩

end Sys2Proof.Machine
end

section
/-! Encoding (30_encoding.md): the fields of a built word, the word rebuilt from its fields, and the obligations about
the decoder. -/

namespace Sys2Proof

/-! ### The fields of a word built by the encoder (R70, R73) -/

@[simp] theorem fieldG_encodeGNNN {g : Nat} (nnn : Word) (hg : g < 16) : fieldG (encodeGNNN g nnn) = g := by
  rw [fieldG_eq, encodeGNNN_toNat nnn hg]
  omega

theorem fieldNNN_encodeGNNN {g : Nat} {nnn : Word} (hg : g < 16) (hfit : nnn.toNat < 0x1000) :
    fieldNNN (encodeGNNN g nnn) = nnn := by
  apply BitVec.eq_of_toNat_eq
  rw [fieldNNN_toNat, encodeGNNN_toNat nnn hg]
  omega

@[simp] theorem fieldG_encodeGXNN {g : Nat} (x : Reg) (nn : Byte) (hg : g < 16) : fieldG (encodeGXNN g x nn) = g := by
  have := x.isLt
  have := nn.isLt
  rw [fieldG_eq, encodeGXNN_toNat x nn hg]
  omega

@[simp] theorem fieldX_encodeGXNN {g : Nat} (x : Reg) (nn : Byte) (hg : g < 16) : fieldX (encodeGXNN g x nn) = x := by
  have := x.isLt
  have := nn.isLt
  apply Fin.ext
  rw [fieldX_val, encodeGXNN_toNat x nn hg]
  omega

@[simp] theorem fieldNN_encodeGXNN {g : Nat} (x : Reg) (nn : Byte) (hg : g < 16) :
    fieldNN (encodeGXNN g x nn) = nn := by
  have := nn.isLt
  apply BitVec.eq_of_toNat_eq
  rw [fieldNN_toNat, encodeGXNN_toNat x nn hg]
  omega

@[simp] theorem fieldG_encodeGXYN {g : Nat} (x y : Reg) (n : Nat) (hg : g < 16) :
    fieldG (encodeGXYN g x y n) = g := by
  have := x.isLt
  have := y.isLt
  rw [fieldG_eq, encodeGXYN_toNat x y n hg]
  omega

@[simp] theorem fieldX_encodeGXYN {g : Nat} (x y : Reg) (n : Nat) (hg : g < 16) :
    fieldX (encodeGXYN g x y n) = x := by
  have := x.isLt
  have := y.isLt
  apply Fin.ext
  rw [fieldX_val, encodeGXYN_toNat x y n hg]
  omega

@[simp] theorem fieldY_encodeGXYN {g : Nat} (x y : Reg) (n : Nat) (hg : g < 16) :
    fieldY (encodeGXYN g x y n) = y := by
  have := y.isLt
  apply Fin.ext
  rw [fieldY_val, encodeGXYN_toNat x y n hg]
  omega

@[simp] theorem fieldN_encodeGXYN {g n : Nat} (x y : Reg) (hg : g < 16) (hn : n < 16) :
    fieldN (encodeGXYN g x y n) = n := by
  rw [fieldN_eq, encodeGXYN_toNat x y n hg]
  omega

/-- Settles O2, row by row of the opcode map: the group field selects the row of the instruction's form, the sub-code
the row within the group, and the operand fields give the operands back; the two hypotheses of well-formedness are
needed for an address and for a sprite height. -/
theorem decodeOfEncode : Obligations.DecodeOfEncode := by
  unfold Obligations.DecodeOfEncode
  intro i hwf
  cases i with
  | cls | ret => rfl
  | jp nnn | call nnn | ldI nnn | jpV0 nnn =>
    have hfit : nnn.toNat < 0x1000 := of_decide_eq_true hwf
    simp [encode, decode, fieldNNN_encodeGNNN _ hfit]
  | seImm x nn | sneImm x nn | ldImm x nn | addImm x nn | rnd x nn => simp [encode, decode]
  | seReg x y | sneReg x y => simp [encode, decode]
  | ldReg x y | orReg x y | andReg x y | xorReg x y | addReg x y | subReg x y | shr x y | subnReg x y | shl x y =>
    simp [encode, decode, decodeGroup8]
  | drw x y n =>
    have hfit : n < 16 := of_decide_eq_true hwf
    simp [encode, decode, hfit]
  | skp x | sknp x => simp [encode, decode, decodeGroupE]
  | ldVxDT x | ldVxK x | ldDTVx x | ldSTVx x | addI x | ldF x | ldB x | storeRegs x | loadRegs x =>
    simp [encode, decode, decodeGroupF]

/-! ### A word rebuilt from its fields (R70) -/

theorem encodeGNNN_fields (w : Word) : encodeGNNN (fieldG w) (fieldNNN w) = w := by
  apply BitVec.eq_of_toNat_eq
  have hG := fieldG_eq w
  have := w.isLt
  rw [encodeGNNN_toNat _ (by omega), hG, fieldNNN_toNat]
  omega

theorem encodeGXNN_fields (w : Word) : encodeGXNN (fieldG w) (fieldX w) (fieldNN w) = w := by
  apply BitVec.eq_of_toNat_eq
  have hG := fieldG_eq w
  have := w.isLt
  rw [encodeGXNN_toNat _ _ (by omega), hG, fieldX_val, fieldNN_toNat]
  omega

theorem encodeGXYN_fields (w : Word) : encodeGXYN (fieldG w) (fieldX w) (fieldY w) (fieldN w) = w := by
  apply BitVec.eq_of_toNat_eq
  have hG := fieldG_eq w
  have := w.isLt
  rw [encodeGXYN_toNat _ _ _ (by omega), hG, fieldX_val, fieldY_val, fieldN_eq]
  omega

theorem addressFits_fieldNNN (w : Word) : addressFits (fieldNNN w) = true := by
  rw [addressFits, fieldNNN_toNat, decide_eq_true_eq]
  omega

theorem heightFits_fieldN (w : Word) : heightFits (fieldN w) = true := by
  rw [heightFits, fieldN_eq, decide_eq_true_eq]
  omega

/-- The instruction is well-formed and has the word `w`. -/
def Instr.HasWord (i : Instr) (w : Word) : Prop := encode i = w ∧ i.wellFormed = true

theorem hasWord_of_decodeGroup0 {w : Word} {i : Instr} (h : decodeGroup0 w = .instr i) : i.HasWord w := by
  unfold decodeGroup0 at h
  split at h
  · rename_i hw
    cases h
    exact ⟨hw.symm, rfl⟩
  · split at h
    · rename_i hw
      cases h
      exact ⟨hw.symm, rfl⟩
    · cases h

theorem hasWord_of_decodeGroup8 {w : Word} {i : Instr} (hg : fieldG w = 0x8) (h : decodeGroup8 w = .instr i) :
    i.HasWord w := by
  have hw := encodeGXYN_fields w
  unfold decodeGroup8 at h
  split at h <;> cases h
  all_goals
    rename_i hn
    rw [hg, hn] at hw
    exact ⟨hw, rfl⟩

theorem hasWord_of_decodeGroupE {w : Word} {i : Instr} (hg : fieldG w = 0xE) (h : decodeGroupE w = .instr i) :
    i.HasWord w := by
  have hw := encodeGXNN_fields w
  unfold decodeGroupE at h
  split_ifs at h with h9E hA1 <;> cases h
  · rw [hg, h9E] at hw
    exact ⟨hw, rfl⟩
  · rw [hg, hA1] at hw
    exact ⟨hw, rfl⟩

theorem hasWord_of_decodeGroupF {w : Word} {i : Instr} (hg : fieldG w = 0xF) (h : decodeGroupF w = .instr i) :
    i.HasWord w := by
  have hw := encodeGXNN_fields w
  unfold decodeGroupF at h
  split_ifs at h <;> cases h
  all_goals
    rename_i hnn
    rw [hg, hnn] at hw
    exact ⟨hw, rfl⟩

/-- Settles O3, group by group: each row keeps every field of the word in an operand, or demands a fixed value of it. -/
theorem encodeOfDecode : Obligations.EncodeOfDecode := by
  unfold Obligations.EncodeOfDecode
  intro w i h
  have hgnnn := encodeGNNN_fields w
  have hgxnn := encodeGXNN_fields w
  have hgxyn := encodeGXYN_fields w
  unfold decode at h
  split at h
  case h_1 => exact hasWord_of_decodeGroup0 h
  case h_9 hg => exact hasWord_of_decodeGroup8 hg h
  case h_15 hg => exact hasWord_of_decodeGroupE hg h
  case h_16 hg => exact hasWord_of_decodeGroupF hg h
  case h_17 => cases h
  case h_6 hg | h_10 hg =>
    split at h <;> cases h
    rename_i hn
    rw [hg, hn] at hgxyn
    exact ⟨hgxyn, rfl⟩
  case h_14 hg =>
    cases h
    rw [hg] at hgxyn
    exact ⟨hgxyn, heightFits_fieldN w⟩
  case h_2 hg | h_3 hg | h_11 hg | h_12 hg =>
    cases h
    rw [hg] at hgnnn
    exact ⟨hgnnn, addressFits_fieldNNN w⟩
  case h_4 hg | h_5 hg | h_7 hg | h_8 hg | h_13 hg =>
    cases h
    rw [hg] at hgxnn
    exact ⟨hgxnn, rfl⟩

/-! ### The undefined words (R74) -/

theorem decodeGroup0_eq_undefined_iff (w : Word) :
    decodeGroup0 w = .undefined w ↔ w.toNat ≠ 0x00E0 ∧ w.toNat ≠ 0x00EE := by
  have hE0 : w = 0x00E0#16 ↔ w.toNat = 0x00E0 := BitVec.toNat_inj.symm
  have hEE : w = 0x00EE#16 ↔ w.toNat = 0x00EE := BitVec.toNat_inj.symm
  unfold decodeGroup0
  split_ifs with h0 h1
  · simp [hE0.1 h0]
  · simp [hEE.1 h1]
  · simp [← hE0, ← hEE, h0, h1]

theorem decodeGroup8_eq_undefined_iff (w : Word) :
    decodeGroup8 w = .undefined w ↔ w.toNat % 16 = 0xF ∨ (0x8 ≤ w.toNat % 16 ∧ w.toNat % 16 ≤ 0xD) := by
  have hn := fieldN_eq w
  have hlt : fieldN w < 16 := by omega
  rw [← hn]
  unfold decodeGroup8
  split
  case h_10 =>
    simp only [imp_false] at *
    simp only [true_iff]
    omega
  all_goals
    rename_i hsub
    simp [hsub]

theorem fieldNN_eq_iff (w : Word) (nn : Byte) : fieldNN w = nn ↔ w.toNat % 256 = nn.toNat := by
  rw [← BitVec.toNat_inj, fieldNN_toNat]

theorem decodeGroupE_eq_undefined_iff (w : Word) :
    decodeGroupE w = .undefined w ↔ w.toNat % 256 ∉ [0x9E, 0xA1] := by
  unfold decodeGroupE
  simp only [fieldNN_eq_iff]
  split_ifs <;> simp_all

theorem decodeGroupF_eq_undefined_iff (w : Word) : decodeGroupF w = .undefined w ↔
    w.toNat % 256 ∉ [0x07, 0x0A, 0x15, 0x18, 0x1E, 0x29, 0x33, 0x55, 0x65] := by
  unfold decodeGroupF
  simp only [fieldNN_eq_iff]
  split_ifs <;> simp_all

/-- Settles O4: the groups 0, 8, E and F by their own lemmas, 5 and 9 by their low nibble, and no other group has an
undefined word. -/
theorem undefinedWordsByGroup : Obligations.UndefinedWordsByGroup := by
  unfold Obligations.UndefinedWordsByGroup
  intro w
  have hG := fieldG_eq w
  have hN := fieldN_eq w
  have hlt := w.isLt
  unfold decode
  rw [← hG]
  split
  case h_1 hg => simp [hg, decodeGroup0_eq_undefined_iff]
  case h_9 hg => simp [hg, decodeGroup8_eq_undefined_iff]
  case h_15 hg => simp [hg, decodeGroupE_eq_undefined_iff]
  case h_16 hg => simp [hg, decodeGroupF_eq_undefined_iff]
  case h_6 hg | h_10 hg => simp [hg, hN]
  case h_17 =>
    simp only [imp_false] at *
    omega
  all_goals
    rename_i hg
    simp [hg]

/-- Settles O1: each word is read by evaluation. -/
theorem decodeReadsSpecWords : Obligations.DecodeReadsSpecWords := by
  unfold Obligations.DecodeReadsSpecWords
  decide

end Sys2Proof
end

section
/-! The invariant (10_state.md section 7): every update an instruction or a host operation makes keeps it, so every step
and every host operation does, and it holds in every reachable state. -/

namespace Sys2Proof.Machine

/-! ### The updates keep the invariant -/

theorem inv_setV {s : State} (x : Reg) (b : Byte) (h : s.Inv) : (s.setV x b).Inv := h

theorem inv_regs {s : State} (regs : Vector Byte 16) (h : s.Inv) : State.Inv { s with regs := regs } := h

theorem inv_keys {s : State} (keys : BitVec 16) (h : s.Inv) : State.Inv { s with keys := keys } := h

theorem inv_shadow {s : State} (shadow : Vector Byte 256) (h : s.Inv) : State.Inv { s with shadow := shadow } := h

theorem inv_mem {s : State} {m : Memory} (hm : m.wf = true) (h : s.Inv) : State.Inv { s with mem := m } := ⟨hm, h.2⟩

theorem inv_setPc {s : State} {target : Nat} (ht : target ≤ 4096) (h : s.Inv) : (s.setPc target).Inv := by
  obtain ⟨hmem, hranges⟩ := h
  refine ⟨hmem, fun hf => ?_⟩
  obtain ⟨hsp, hi, -, hentries⟩ := hranges hf
  refine ⟨hsp, hi, ?_, hentries⟩
  rw [State.setPc_pc_toNat s target (by omega)]
  exact ht

theorem inv_setI {s : State} {address : Nat} (ha : address ≤ 0xFFF) (h : s.Inv) : (s.setI address).Inv := by
  obtain ⟨hmem, hranges⟩ := h
  refine ⟨hmem, fun hf => ?_⟩
  obtain ⟨hsp, -, hpc, hentries⟩ := hranges hf
  refine ⟨hsp, ?_, hpc, hentries⟩
  rw [State.setI_i_toNat s address (by omega)]
  exact ha

theorem inv_lowerSp {s : State} (h : s.Inv) : State.Inv { s with sp := s.sp - 1 } := by
  obtain ⟨hmem, hranges⟩ := h
  refine ⟨hmem, fun hf => ?_⟩
  obtain ⟨hsp, hi, hpc, hentries⟩ := hranges hf
  exact ⟨(Nat.sub_le _ _).trans hsp, hi, hpc, hentries⟩

/-- The run state may change as long as a faulted engine stays faulted: its other fields are unspecified (R224). -/
theorem inv_runState {s : State} (r : RunState) (hf : s.isFaulted = false) (h : s.Inv) :
    State.Inv { s with runState := r } := ⟨h.1, fun _ => h.2 hf⟩

/-- Fault entry leaves memory canonical, and the ranges are not asked of a faulted engine (R223, R224). -/
theorem inv_raiseFault (reason : FaultReason) (info : FaultInfo) (s : State) : (raiseFault reason info s).Inv := by
  refine ⟨raiseFault_mem_wf reason info s, fun hf => ?_⟩
  cases hf

/-- The stack entries once CALL has stored pc at the height (R113). -/
theorem State.stackEntry_push {s : State} (hsp : s.sp < 24) (k : Nat) :
    State.stackEntry { s with stack := s.stack.setIfInBounds s.sp s.pc, sp := s.sp + 1 } k =
      if k = s.sp then s.pc else s.stackEntry k := by
  unfold State.stackEntry
  rw [Vector.getElem?_setIfInBounds]
  by_cases hk : s.sp = k
  · simp [hk ▸ hsp, hk]
  · simp [hk, Ne.symm hk]

theorem inv_push {s : State} (hsp : s.sp < 24) (h : s.Inv) :
    State.Inv { s with stack := s.stack.setIfInBounds s.sp s.pc, sp := s.sp + 1 } := by
  obtain ⟨hmem, hranges⟩ := h
  refine ⟨hmem, fun hf => ?_⟩
  obtain ⟨-, hi, hpc, hentries⟩ := hranges hf
  refine ⟨hsp, hi, hpc, fun k => ?_⟩
  rw [State.stackEntry_push hsp]
  split
  · exact hpc
  · exact hentries k

/-! ### Instructions, steps and host operations keep it -/

theorem skipEffect_keeps_inv {s t : State} (h : s.Inv) (he : SkipEffect s t) : t.Inv := by
  rcases he with rfl | ⟨hlt, rfl⟩
  · exact h
  · exact inv_setPc hlt.le h

/-- A well-formed instruction's own effect keeps the invariant: an address operand is what needs well-formedness. -/
theorem ownEffect_keeps_inv {i : Instr} {s t : State} (hwf : i.wellFormed = true) (hf : s.isFaulted = false)
    (h : s.Inv) (he : OwnEffect i s t) : t.Inv := by
  cases i with
  | cls =>
    obtain ⟨m, hm, rfl⟩ := he
    exact inv_mem (hm ▸ wf_clearFrameBuffer h.1) h
  | ret =>
    obtain ⟨-, hlt, rfl⟩ := he
    exact inv_setPc hlt.le (inv_lowerSp h)
  | jp nnn =>
    obtain rfl := he
    exact inv_setPc (of_decide_eq_true hwf : nnn.toNat < 0x1000).le h
  | call nnn =>
    obtain ⟨hsp, rfl⟩ := he
    exact inv_setPc (of_decide_eq_true hwf : nnn.toNat < 0x1000).le (inv_push hsp h)
  | jpV0 nnn =>
    obtain ⟨hlt, rfl⟩ := he
    exact inv_setPc hlt.le h
  | ldI nnn =>
    obtain rfl := he
    exact inv_setI (Nat.le_of_lt_succ (of_decide_eq_true hwf)) h
  | addI x =>
    obtain ⟨hlt, rfl⟩ := he
    exact inv_setI (Nat.le_of_lt_succ hlt) h
  | ldF x =>
    obtain ⟨hlt, rfl⟩ := he
    exact inv_setI (by omega) h
  | seImm | sneImm | seReg | sneReg | skp | sknp => exact skipEffect_keeps_inv h he
  | ldImm | addImm | ldReg | orReg | andReg | xorReg | ldVxDT | rnd =>
    obtain ⟨b, rfl⟩ := he
    exact h
  | addReg | subReg | shr | subnReg | shl =>
    obtain ⟨b, flag, rfl⟩ := he
    exact h
  | drw x y n =>
    obtain ⟨-, flag, rfl⟩ := he
    exact inv_setV _ _ (inv_mem (wf_drawRows _ _ _ _ _ _ h.1) h)
  | ldVxK x =>
    obtain rfl := he
    exact inv_runState _ hf h
  | ldDTVx | ldSTVx =>
    obtain rfl := he
    exact h
  | ldB | storeRegs =>
    obtain ⟨bs, -, rfl⟩ := he
    exact inv_mem (Memory.wf_writeBytes _ _ h.1) h
  | loadRegs x =>
    obtain ⟨-, rfl⟩ := he
    exact inv_regs _ h

theorem exec_keeps_inv {i : Instr} {s t : State} (hwf : i.wellFormed = true) (hf : s.isFaulted = false)
    (h : s.Inv) (he : exec i s = .next t) : t.Inv := by
  rcases exec_cases he with ⟨reason, -, rfl⟩ | he
  · exact inv_raiseFault _ _ _
  · exact ownEffect_keeps_inv hwf hf h he

theorem keyWaitService_keeps_inv {s : State} (x : Reg) (hf : s.isFaulted = false) (h : s.Inv) :
    (keyWaitService x s).Inv := by
  rcases keyWaitService_cases x s with ⟨-, e⟩ | ⟨k, -, -, e⟩ <;> rw [e]
  · exact h
  · exact inv_runState _ hf (inv_setV _ _ h)

/-- Settles O54: the key wait writes no ranged field, a fault asks only for canonical memory, and the execute phase
runs a decoded, hence well-formed, instruction with pc at most 4096. -/
theorem stepKeepsInvariant : Obligations.StepKeepsInvariant := by
  unfold Obligations.StepKeepsInvariant
  intro s t h hstep
  rcases step_cases hstep with ⟨x, hrun, rfl⟩ | ⟨-, -, rfl⟩ | ⟨-, -, -, rfl⟩ | ⟨hrun, hpc, i, hi, he⟩
  · exact keyWaitService_keeps_inv x (State.not_isFaulted_of_awaitingKey s hrun) h
  · exact inv_raiseFault _ _ _
  · exact inv_raiseFault _ _ _
  · have hwf : i.wellFormed = true := (encodeOfDecode _ i hi).2
    have hinv : (advancePc s).Inv := inv_setPc hpc h
    have hf : (advancePc s).isFaulted = false := State.not_isFaulted_of_running (advancePc s) hrun
    exact exec_keeps_inv hwf hf hinv he

/-- What every step keeps, a run of steps keeps. -/
theorem runSteps_keeps {P : State → Prop} (hP : ∀ s t, P s → step s = .next t → P t) (n : Nat) {s : State} (h : P s) :
    P (runSteps n s) := by
  induction n generalizing s with
  | zero => exact h
  | succ n ih =>
    rw [runSteps]
    split
    · rename_i t ht
      exact ih (hP s t h ht)
    · exact h
    · exact h

theorem stepBatch_keeps_inv (n : Nat) (keys : BitVec 16) {s : State} (h : s.Inv) : (stepBatch n keys s).Inv := by
  unfold stepBatch
  split
  · exact h
  · exact runSteps_keeps (P := State.Inv) stepKeepsInvariant n (inv_keys keys h)

theorem tick_keeps_inv {s : State} (h : s.Inv) : (tick s).Inv := by
  unfold tick
  split <;> exact h

theorem commit_keeps_inv {s : State} (h : s.Inv) : (commit s).Inv := inv_shadow (frameBufferCopy s.mem) h

theorem loadOffset_le (species : Species) : loadOffset species ≤ 4096 := by
  cases species <;> decide

theorem load_keeps_inv (image : List Byte) (species : Species) {s : State} (h : s.Inv) :
    (load image species s).1.Inv := by
  rcases load_cases image species s with e | ⟨m, hm, e⟩ <;> rw [e]
  · exact h
  · exact inv_setPc (loadOffset_le species) (inv_mem (hm h.1) h)

/-- Settles O60, operation by operation: a batch by induction on its steps, and the queries change no state. -/
theorem hostOperationsKeepInvariant : Obligations.HostOperationsKeepInvariant := by
  unfold Obligations.HostOperationsKeepInvariant
  intro op s h
  cases op with
  | stepBatch n keys => exact stepBatch_keeps_inv n keys h
  | tick => exact tick_keeps_inv h
  | load image species => exact load_keeps_inv image species h
  | commit => exact commit_keeps_inv h
  | needsRedraw | readFrameBuffer | soundOn | dump | status => exact h

theorem hostOps_keep_inv (ops : List HostOp) {s : State} (h : s.Inv) : (hostOps ops s).Inv := by
  induction ops generalizing s with
  | nil => exact h
  | cons op ops ih => exact ih (hostOperationsKeepInvariant op s h)

/-! ### Construction (10_state.md section 7) -/

theorem stackEntry_reset (k : Nat) : State.reset.stackEntry k = 0 := by
  simp only [State.stackEntry, State.reset, Vector.getElem?_replicate]
  split <;> rfl

/-- Settles O53: memory is empty, and every ranged field is 0. -/
theorem constructionMeetsInvariant : Obligations.ConstructionMeetsInvariant := by
  unfold Obligations.ConstructionMeetsInvariant
  refine ⟨Memory.wf_nil, fun _ => ⟨by decide, by decide, by decide, fun k => ?_⟩⟩
  rw [stackEntry_reset]
  decide

/-- Settles O55, by induction on the sequence of host operations, from construction. -/
theorem reachableStatesMeetInvariant : Obligations.ReachableStatesMeetInvariant := by
  unfold Obligations.ReachableStatesMeetInvariant
  rintro s ⟨ops, rfl⟩
  exact hostOps_keep_inv ops constructionMeetsInvariant

/-- Settles O52: every field is read off the state at construction. -/
theorem constructionZeroesState : Obligations.ConstructionZeroesState := by
  unfold Obligations.ConstructionZeroesState
  refine ⟨by decide, rfl, rfl, rfl, rfl, rfl, stackEntry_reset, fun a => rfl, rfl, rfl, fun k h => ?_⟩
  exact Vector.getElem_replicate h

end Sys2Proof.Machine
end

section
/-! The step of each run state (40_execution_cycle.md section 1), one equation each, and the obligations that say no
more than that. -/

namespace Sys2Proof.Machine

theorem fetchedWord_toNat (s : State) : (fetchedWord s).toNat =
    (s.mem.read s.pc.toNat).toNat * 256 + (s.mem.read (s.pc.toNat + 1)).toNat := wordOfBytes_toNat _ _

/-- The word of the two bytes at pc is the fetched one. -/
theorem eq_fetchedWord {s : State} {w : Word}
    (h : w.toNat = (s.mem.read s.pc.toNat).toNat * 256 + (s.mem.read (s.pc.toNat + 1)).toNat) : w = fetchedWord s :=
  BitVec.eq_of_toNat_eq (h.trans (fetchedWord_toNat s).symm)

theorem advancePc_eq (s : State) : advancePc s = { s with pc := s.pc + 2 } := by
  have hpc : BitVec.ofNat 16 (s.pc.toNat + 2) = s.pc + 2 := by
    apply BitVec.eq_of_toNat_eq
    simp
  rw [advancePc, State.setPc, hpc]

theorem step_of_faulted {s : State} {reason : FaultReason} {info : FaultInfo}
    (h : s.runState = .faulted reason info) : step s = .fault (.engineFaulted reason info) := by
  simp only [step, h]

theorem step_of_awaitingKey {s : State} {x : Reg} (h : s.runState = .awaitingKey x) :
    step s = .next (keyWaitService x s) := by
  simp only [step, h]

theorem step_of_outOfBounds {s : State} (h : s.runState = .running) (hpc : 4096 < s.pc.toNat + 2) :
    step s = .next (fetchFault s) := by
  simp only [step, h, fetchBytes_of_outOfBounds hpc]

theorem decodeBytes_fetched (s : State) :
    decodeBytes [s.mem.read s.pc.toNat, s.mem.read (s.pc.toNat + 1)] = decode (fetchedWord s) := rfl

theorem step_of_instr {s : State} {i : Instr} (h : s.runState = .running) (hpc : s.pc.toNat + 2 ≤ 4096)
    (hi : decode (fetchedWord s) = .instr i) : step s = exec i (advancePc s) := by
  simp only [step, h, fetchBytes_of_inBounds hpc, decodeBytes_fetched, hi]

theorem step_of_undefined {s : State} {w : Word} (h : s.runState = .running) (hpc : s.pc.toNat + 2 ≤ 4096)
    (hw : decode (fetchedWord s) = .undefined w) : step s = .next (undefinedFault s) := by
  simp only [step, h, fetchBytes_of_inBounds hpc, decodeBytes_fetched, hw]

/-- Settles O5: the two bytes at pc are the fetched word. -/
theorem stepRunsDecodedInstruction : Obligations.StepRunsDecodedInstruction := by
  unfold Obligations.StepRunsDecodedInstruction
  intro s w i hrun hpc hw hi
  rw [eq_fetchedWord hw] at hi
  rw [step_of_instr hrun hpc hi, advancePc_eq]

/-- Settles O6: the fault records the fetched word, which is the undefined one. -/
theorem undefinedWordFaults : Obligations.UndefinedWordFaults := by
  unfold Obligations.UndefinedWordFaults
  intro s w hrun hpc hw hundef
  obtain rfl := eq_fetchedWord hw
  exact ⟨undefinedFault s, step_of_undefined hrun hpc hundef, rfl⟩

end Sys2Proof.Machine
end

section
/-! What an instruction writes: the frame of every instruction in one lemma, and the obligations about which
instructions write which piece of state (10_state.md sections 3 and 4, 20_memory.md section 3). -/

namespace Sys2Proof.Machine

/-! ### Frames compose -/

theorem Part.same_refl (p : Part) (s : State) : p.same s s := by
  cases p <;> simp [Part.same]

theorem Part.same_trans {p : Part} {s t u : State} (hst : p.same s t) (htu : p.same t u) : p.same s u := by
  cases p <;> simp_all [Part.same]

theorem frame_refl (s : State) : Frame [] [] s s := ⟨fun _ _ => rfl, fun p _ => p.same_refl s, rfl, rfl⟩

/-- Two updates in a row write what either writes. -/
theorem Frame.trans {parts parts' : List Part} {dests dests' : List Reg} {s t u : State}
    (hst : Frame parts dests s t) (htu : Frame parts' dests' t u) : Frame (parts ++ parts') (dests ++ dests') s u := by
  obtain ⟨hregs, hparts, hparams, hdumps⟩ := hst
  obtain ⟨hregs', hparts', hparams', hdumps'⟩ := htu
  simp only [Frame, List.mem_append, not_or]
  exact ⟨fun r hr => (hregs' r hr.2).trans (hregs r hr.1), fun p hp => Part.same_trans (hparts p hp.1) (hparts' p hp.2),
    hparams'.trans hparams, hdumps'.trans hdumps⟩

/-- A frame may name more than is written. -/
theorem Frame.mono {parts parts' : List Part} {dests dests' : List Reg} {s t : State} (h : Frame parts dests s t)
    (hparts : parts ⊆ parts') (hdests : dests ⊆ dests') : Frame parts' dests' s t := by
  obtain ⟨hr, hp, hparams, hdumps⟩ := h
  exact ⟨fun r hr' => hr r fun hmem => hr' (hdests hmem), fun p hp' => hp p fun hmem => hp' (hparts hmem), hparams,
    hdumps⟩

theorem frame_stack (s : State) (stack : Vector Word 24) (sp : Nat) :
    Frame [.stack] [] s { s with stack := stack, sp := sp } := by
  refine ⟨fun _ _ => rfl, fun p hp => ?_, rfl, rfl⟩
  cases p <;> simp [Part.same] at hp ⊢

theorem frame_draws (s : State) (n : Nat) : Frame [.draws] [] s { s with draws := n } := by
  refine ⟨fun _ _ => rfl, fun p hp => ?_, rfl, rfl⟩
  cases p <;> simp [Part.same] at hp ⊢

/-- Registers V0 to VX after a block load (R165). -/
theorem v_ofFn (s : State) (f : Reg → Byte) (r : Reg) : State.v { s with regs := Vector.ofFn f } r = f r := by
  simp [State.v]

theorem frame_loadRegs (s : State) (x : Reg) (f : Reg → Byte) :
    Frame [] ((List.finRange 16).filter fun k => k ≤ x) s
      { s with regs := Vector.ofFn fun k : Reg => if k ≤ x then f k else s.v k } := by
  refine ⟨fun r hr => ?_, fun p _ => ?_, rfl, rfl⟩
  · have hx : ¬ r ≤ x := by simpa using hr
    rw [v_ofFn, if_neg hx]
  · cases p <;> simp [Part.same]

theorem skipEffect_frame {s t : State} (h : SkipEffect s t) : Frame [.pc] [] s t := by
  rcases h with rfl | ⟨-, rfl⟩
  · exact (frame_refl t).mono (by simp) (by simp)
  · exact frame_setPc s _

/-! ### What each instruction may write -/

/-- The pieces of state, besides the registers, that an execute phase may write when it raises no fault. -/
def partsWritten : Instr → List Part
  | .cls | .drw _ _ _ | .ldB _ | .storeRegs _ => [.mem]
  | .ret | .call _ => [.stack, .pc]
  | .jp _ | .jpV0 _ | .seImm _ _ | .sneImm _ _ | .seReg _ _ | .sneReg _ _ | .skp _ | .sknp _ => [.pc]
  | .ldI _ | .addI _ | .ldF _ => [.i]
  | .rnd _ _ => [.draws]
  | .ldVxK _ => [.runState]
  | .ldDTVx _ => [.dt]
  | .ldSTVx _ => [.st]
  | _ => []

/-- KEYS and the shadow belong to the host: no instruction writes them (R27, R29). -/
theorem hostParts_not_mem_partsWritten (i : Instr) : Part.keys ∉ partsWritten i ∧ Part.shadow ∉ partsWritten i := by
  cases i <;> simp [partsWritten]

/-- The registers an execute phase may write when it raises no fault. -/
def regsWritten : Instr → List Reg
  | .ldImm x _ | .addImm x _ | .ldReg x _ | .orReg x _ | .andReg x _ | .xorReg x _ | .rnd x _ | .ldVxDT x => [x]
  | .addReg x _ | .subReg x _ | .shr x _ | .subnReg x _ | .shl x _ => [x, 15]
  | .drw _ _ _ => [15]
  | .loadRegs x => (List.finRange 16).filter fun k => k ≤ x
  | _ => []

/-- The frame of every instruction: its own effect writes no more than `partsWritten` and `regsWritten` name. -/
theorem ownEffect_frame {i : Instr} {s t : State} (h : OwnEffect i s t) :
    Frame (partsWritten i) (regsWritten i) s t := by
  cases i with
  | cls =>
    obtain ⟨m, -, rfl⟩ := h
    exact frame_mem s m
  | ret =>
    obtain ⟨-, -, rfl⟩ := h
    exact (frame_stack s s.stack (s.sp - 1)).trans (frame_setPc _ _)
  | call nnn =>
    obtain ⟨-, rfl⟩ := h
    exact (frame_stack s _ _).trans (frame_setPc _ _)
  | jp nnn =>
    obtain rfl := h
    exact frame_setPc s _
  | jpV0 nnn =>
    obtain ⟨-, rfl⟩ := h
    exact frame_setPc s _
  | seImm | sneImm | seReg | sneReg | skp | sknp => exact skipEffect_frame h
  | ldImm | addImm | ldReg | orReg | andReg | xorReg | ldVxDT =>
    obtain ⟨b, rfl⟩ := h
    exact frame_setV s _ b
  | addReg | subReg | shr | subnReg | shl =>
    obtain ⟨b, flag, rfl⟩ := h
    exact frame_setV_vf s _ b _
  | rnd x nn =>
    obtain ⟨b, rfl⟩ := h
    exact (frame_draws s _).trans (frame_setV _ x b)
  | drw x y n =>
    obtain ⟨-, flag, rfl⟩ := h
    exact (frame_mem s _).trans (frame_setV _ vf _)
  | ldVxK x =>
    obtain rfl := h
    exact frame_runState s _
  | ldDTVx x =>
    obtain rfl := h
    exact frame_dt s _
  | ldSTVx x =>
    obtain rfl := h
    exact frame_st s _
  | ldI nnn =>
    obtain rfl := h
    exact frame_setI s _
  | addI | ldF =>
    obtain ⟨-, rfl⟩ := h
    exact frame_setI s _
  | ldB | storeRegs =>
    obtain ⟨bs, -, rfl⟩ := h
    exact frame_mem s _
  | loadRegs x =>
    obtain ⟨-, rfl⟩ := h
    exact frame_loadRegs s x _

/-- A piece of state the instruction does not write is the same after an execute phase that raises no fault. -/
theorem part_same_of_exec {i : Instr} {s t : State} (p : Part) (h : exec i s = .next t) (hf : t.isFaulted = false)
    (hp : p ∉ partsWritten i) : p.same s t := by
  obtain ⟨-, hparts, -, -⟩ := ownEffect_frame (ownEffect_of_not_faulted h hf)
  exact hparts p hp

/-! ### The writers of each piece of state -/

/-- Register VF is among the registers written exactly by the writers of R21. -/
theorem vf_mem_regsWritten_iff (i : Instr) :
    15 ∈ regsWritten i ↔ writesFlag i = true ∨ namesFlagAsDestination i = true := by
  cases i with
  | loadRegs x =>
    have hx : (15 : Reg) ≤ x ↔ x = 15 := ⟨fun h => le_antisymm (Fin.le_last x) h, fun h => h ▸ le_rfl⟩
    simp [regsWritten, writesFlag, namesFlagAsDestination, hx]
  | _ => simp [regsWritten, writesFlag, namesFlagAsDestination, eq_comm (a := (15 : Reg))]

theorem flagByte_eq (flag : Bool) : flagByte flag = 0 ∨ flagByte flag = 1 := by
  cases flag
  · exact Or.inl rfl
  · exact Or.inr rfl

/-- An implicit flag writer ends with its write of VF (R32). -/
theorem vf_of_writesFlag {i : Instr} {s t : State} (h : OwnEffect i s t) (hw : writesFlag i = true) :
    ∃ flag, t.v 15 = flagByte flag := by
  cases i with
  | addReg | subReg | shr | subnReg | shl =>
    obtain ⟨b, flag, rfl⟩ := h
    exact ⟨flag, State.v_setV_same _ _ _⟩
  | drw x y n =>
    obtain ⟨-, flag, rfl⟩ := h
    exact ⟨flag, State.v_setV_same _ _ _⟩
  | _ => cases hw

/-- Settles O44: the frame of each instruction names VF exactly for the writers of R21, and the implicit ones write a
flag byte. -/
theorem flagRegisterWriters : Obligations.FlagRegisterWriters := by
  unfold Obligations.FlagRegisterWriters
  intro i s t h hf
  have heffect := ownEffect_of_not_faulted h hf
  refine ⟨fun hw hd => ?_, fun hw => ?_⟩
  · obtain ⟨hregs, -, -, -⟩ := ownEffect_frame heffect
    refine hregs 15 ?_
    rw [vf_mem_regsWritten_iff, hw, hd]
    decide
  · obtain ⟨flag, e⟩ := vf_of_writesFlag heffect hw
    rw [e]
    exact flagByte_eq flag

/-- Settles O45: I is in the frame of no other instruction. -/
theorem indexWriters : Obligations.IndexWriters := by
  unfold Obligations.IndexWriters
  intro i s t h hf hldI haddI hldF
  have hnot : Part.i ∉ partsWritten i := by
    cases i with
    | ldI nnn => exact absurd rfl (hldI nnn)
    | addI x => exact absurd rfl (haddI x)
    | ldF x => exact absurd rfl (hldF x)
    | _ => simp [partsWritten]
  exact part_same_of_exec .i h hf hnot

/-- Settles O46: the stack is in the frame of CALL and RET only, and RET lowers the height without writing an entry. -/
theorem stackWriters : Obligations.StackWriters := by
  unfold Obligations.StackWriters
  intro i s t h hf hcall
  by_cases hret : i = .ret
  · subst hret
    obtain ⟨-, -, rfl⟩ := ownEffect_of_not_faulted h hf
    exact ⟨rfl, fun hne => absurd rfl hne⟩
  · have hnot : Part.stack ∉ partsWritten i := by
      cases i with
      | call nnn => exact absurd rfl (hcall nnn)
      | ret => exact absurd rfl hret
      | _ => simp [partsWritten]
    obtain ⟨hsp, hstack⟩ := part_same_of_exec .stack h hf hnot
    exact ⟨hstack, fun _ => hsp⟩

/-- Settles O47: each timer is in the frame of its own write only, and the key-wait service writes a register and the
run state. -/
theorem timerWriters : Obligations.TimerWriters := by
  unfold Obligations.TimerWriters
  refine ⟨fun i s t h hf => ⟨fun hdt => ?_, fun hst => ?_⟩, fun s t x hrun h => ?_⟩
  · have hnot : Part.dt ∉ partsWritten i := by
      cases i with
      | ldDTVx x => exact absurd rfl (hdt x)
      | _ => simp [partsWritten]
    exact part_same_of_exec .dt h hf hnot
  · have hnot : Part.st ∉ partsWritten i := by
      cases i with
      | ldSTVx x => exact absurd rfl (hst x)
      | _ => simp [partsWritten]
    have hsame : t.st = s.st := part_same_of_exec .st h hf hnot
    exact ⟨hsame, by rw [soundOn, soundOn, hsame]⟩
  · rw [step_of_awaitingKey hrun] at h
    injection h with h
    subst h
    rcases keyWaitService_cases x s with ⟨-, e⟩ | ⟨k, -, -, e⟩ <;> rw [e] <;> exact ⟨rfl, rfl⟩

/-- Memory as data, not only what it reads as, is left alone by an instruction whose frame does not name it. -/
theorem mem_eq_of_ownEffect {i : Instr} {s t : State} (h : OwnEffect i s t) (hnot : Part.mem ∉ partsWritten i) :
    t.mem = s.mem := by
  cases i with
  | cls | drw | ldB | storeRegs => simp [partsWritten] at hnot
  | seImm | sneImm | seReg | sneReg | skp | sknp => rcases h with rfl | ⟨-, rfl⟩ <;> rfl
  | jp | ldI | ldVxK | ldDTVx | ldSTVx =>
    obtain rfl := h
    rfl
  | ret =>
    obtain ⟨-, -, rfl⟩ := h
    rfl
  | call | jpV0 | addI | ldF | loadRegs =>
    obtain ⟨-, rfl⟩ := h
    rfl
  | ldImm | addImm | ldReg | orReg | andReg | xorReg | ldVxDT | rnd =>
    obtain ⟨b, rfl⟩ := h
    rfl
  | addReg | subReg | shr | subnReg | shl =>
    obtain ⟨b, flag, rfl⟩ := h
    rfl

/-- Settles O49: memory is in the frame of the four writers only. -/
theorem memoryWriters : Obligations.MemoryWriters := by
  unfold Obligations.MemoryWriters
  intro i s t h hf hcls hdrw hldB hstore
  refine mem_eq_of_ownEffect (ownEffect_of_not_faulted h hf) ?_
  cases i with
  | cls => exact absurd rfl hcls
  | drw x y n => exact absurd rfl (hdrw x y n)
  | ldB x => exact absurd rfl (hldB x)
  | storeRegs x => exact absurd rfl (hstore x)
  | _ => simp [partsWritten]

/-! ### Which faults an execute phase raises -/

/-- The run state after an execute phase that raises no fault: only LD Vx, K changes it (R28, R205). -/
theorem runState_of_ownEffect {i : Instr} {s t : State} (h : OwnEffect i s t) :
    t.runState = s.runState ∨ ∃ x, i = .ldVxK x ∧ t.runState = .awaitingKey x := by
  by_cases hnot : Part.runState ∈ partsWritten i
  · cases i with
    | ldVxK x =>
      obtain rfl := h
      exact Or.inr ⟨x, rfl, rfl⟩
    | _ => simp [partsWritten] at hnot
  · obtain ⟨-, hparts, -, -⟩ := ownEffect_frame h
    exact Or.inl (hparts .runState hnot)

/-- An execute phase that leaves the engine faulted raised one of its own reasons (R221, R222). -/
theorem raised_of_exec {i : Instr} {s t : State} {reason : FaultReason} {info : FaultInfo} (hf : s.isFaulted = false)
    (h : exec i s = .next t) (hr : t.runState = .faulted reason info) :
    reason ∈ faultReasons i ∧ info = executingInfo i s ∧ t = raiseFault reason (executingInfo i s) s := by
  rcases exec_cases h with ⟨reason', hmem, rfl⟩ | heffect
  · injection hr with hreason hinfo
    subst hreason
    exact ⟨hmem, hinfo.symm, rfl⟩
  · rcases runState_of_ownEffect heffect with e | ⟨x, -, e⟩
    · have := (State.isFaulted_iff s).2 ⟨reason, info, e ▸ hr⟩
      rw [hf] at this
      cases this
    · rw [e] at hr
      cases hr

/-- Settles O50: what is raised is in the list that `exec_cases` speaks of. -/
theorem faultReasonsByInstruction : Obligations.FaultReasonsByInstruction := by
  unfold Obligations.FaultReasonsByInstruction
  intro i s t reason info hf h hr
  exact (raised_of_exec hf h hr).1

end Sys2Proof.Machine
end

section
/-! Steps and batches (40_execution_cycle.md): faulting steps, the key wait and runs of steps, and the obligations about
them. -/

namespace Sys2Proof.Machine

/-! ### Steps that fault, and what every step leaves alone (R93, R222) -/

/-- No execute phase raises F_PC_OUT_OF_BOUNDS (R221). -/
theorem pcOutOfBounds_not_mem_faultReasons (i : Instr) : FaultReason.pcOutOfBounds ∉ faultReasons i := by
  cases i <;> simp [faultReasons]

/-- Everything a step that faults can be: a fetch outside memory, an undefined word, or one of the decoded
instruction's own reasons. A key-wait step never faults (R206). -/
theorem step_fault_cases {s t : State} {reason : FaultReason} {info : FaultInfo} (h : step s = .next t)
    (hr : t.runState = .faulted reason info) :
    s.runState = .running ∧
      ((4096 < s.pc.toNat + 2 ∧ t = fetchFault s) ∨
        (s.pc.toNat + 2 ≤ 4096 ∧ t = undefinedFault s) ∨
        (s.pc.toNat + 2 ≤ 4096 ∧ ∃ i, decode (fetchedWord s) = .instr i ∧ reason ∈ faultReasons i ∧
          t = raiseFault reason (executingInfo i (advancePc s)) (advancePc s))) := by
  rcases step_cases h with ⟨x, hrun, rfl⟩ | ⟨hrun, hpc, rfl⟩ | ⟨hrun, hpc, -, rfl⟩ | ⟨hrun, hpc, i, hi, he⟩
  · rcases keyWaitService_cases x s with ⟨-, e⟩ | ⟨k, -, -, e⟩ <;> rw [e] at hr
    · rw [hrun] at hr
      cases hr
    · cases hr
  · exact ⟨hrun, Or.inl ⟨hpc, rfl⟩⟩
  · exact ⟨hrun, Or.inr (Or.inl ⟨hpc, rfl⟩)⟩
  · have hf : (advancePc s).isFaulted = false := State.not_isFaulted_of_running (advancePc s) hrun
    obtain ⟨hmem, -, ht⟩ := raised_of_exec hf he hr
    exact ⟨hrun, Or.inr (Or.inr ⟨hpc, i, hi, hmem, ht⟩)⟩

/-- Settles O7: outside memory the fetch faults before anything is decoded; inside, an undefined word and an execute
phase raise other reasons. -/
theorem fetchFaultsExactlyOutsideMemory : Obligations.FetchFaultsExactlyOutsideMemory := by
  unfold Obligations.FetchFaultsExactlyOutsideMemory
  intro s hrun
  refine ⟨fun hpc => ⟨fetchFault s, step_of_outOfBounds hrun (by omega), rfl⟩, fun hpc t info hstep hr => ?_⟩
  rcases step_fault_cases hstep hr with ⟨-, ⟨hout, -⟩ | ⟨-, rfl⟩ | ⟨-, i, -, hmem, -⟩⟩
  · omega
  · cases hr
  · exact pcOutOfBounds_not_mem_faultReasons i hmem

/-- Settles O51, by the three ways a step faults; an instruction's own fault records its encoding, which is the word it
was decoded from (`encodeOfDecode`). -/
theorem faultRecordsAddressAndWord : Obligations.FaultRecordsAddressAndWord := by
  unfold Obligations.FaultRecordsAddressAndWord
  intro s t reason info hstep hr
  rcases step_fault_cases hstep hr with ⟨hrun, ⟨-, rfl⟩ | ⟨-, rfl⟩ | ⟨-, i, hi, hmem, rfl⟩⟩
  case inl =>
    cases hr
    exact ⟨hrun, rfl, fun _ => rfl, fun hne => absurd rfl hne, rfl⟩
  case inr.inl =>
    cases hr
    refine ⟨hrun, rfl, nofun, fun _ => ?_, rfl⟩
    exact ⟨fetchedWord s, rfl, fetchedWord_toNat s⟩
  case inr.inr =>
    cases hr
    refine ⟨hrun, ?_, fun e => ?_, fun _ => ⟨fetchedWord s, ?_, fetchedWord_toNat s⟩, rfl⟩
    · simp [executingInfo, advancePc_eq]
    · exact absurd (e ▸ hmem) (pcOutOfBounds_not_mem_faultReasons i)
    · rw [executingInfo, (encodeOfDecode _ i hi).1]

/-- Settles O48: a key-wait step writes the register and the run state, and an execute phase has no host-owned state in
its frame. -/
theorem stepsLeaveHostStateAlone : Obligations.StepsLeaveHostStateAlone := by
  unfold Obligations.StepsLeaveHostStateAlone
  intro s t hstep hf
  rcases step_cases hstep with ⟨x, hrun, rfl⟩ | ⟨-, -, rfl⟩ | ⟨-, -, -, rfl⟩ | ⟨hrun, -, i, hi, he⟩
  · rcases keyWaitService_cases x s with ⟨-, e⟩ | ⟨k, -, -, e⟩ <;> rw [e]
    · exact ⟨rfl, rfl, rfl, rfl, fun hne => absurd rfl hne⟩
    · exact ⟨rfl, rfl, rfl, rfl, fun _ => Or.inl ⟨x, hrun, rfl⟩⟩
  · cases hf
  · cases hf
  · have heffect := ownEffect_of_not_faulted he hf
    obtain ⟨-, hparts, hparams, hdumps⟩ := ownEffect_frame heffect
    obtain ⟨hkeys, hshadow⟩ := hostParts_not_mem_partsWritten i
    refine ⟨hparts .keys hkeys, hparts .shadow hshadow, hparams, hdumps, fun hne => ?_⟩
    rcases runState_of_ownEffect heffect with e | ⟨x, rfl, e⟩
    · exact absurd e hne
    · exact Or.inr ⟨hrun, x, hi, e⟩

/-! ### The key wait (R92, R206) -/

/-- Settles O9: the lowest pressed key is unique, so the scan finds the key that the statement names. -/
theorem keyWaitTakesLowestKey : Obligations.KeyWaitTakesLowestKey := by
  unfold Obligations.KeyWaitTakesLowestKey
  intro s x hrun
  rw [step_of_awaitingKey hrun]
  refine ⟨fun hnone => by rw [keyWaitService_of_noKey x s hnone], fun k hk hlow => ?_⟩
  rcases keyWaitService_cases x s with ⟨hnone, -⟩ | ⟨j, hj, hjlow, e⟩
  · rw [hnone k] at hk
    cases hk
  · have hjk : j = k := by
      rcases lt_trichotomy j k with hlt | heq | hgt
      · rw [hlow j hlt] at hj
        cases hj
      · exact heq
      · rw [hjlow k hgt] at hk
        cases hk
    subst hjk
    refine ⟨_, congrArg _ e, ?_, rfl, (frame_setV s x _).trans (frame_runState _ _)⟩
    have hfits : j.val % 256 = j.val := Nat.mod_eq_of_lt (by have := j.isLt; omega)
    change ((s.setV x (BitVec.ofNat 8 j.val)).v x).toNat = j.val
    rw [State.v_setV_same, BitVec.toNat_ofNat]
    exact hfits

/-! ### Runs of steps and batches (R96, R97) -/

theorem runSteps_of_next {s t : State} (h : step s = .next t) (n : Nat) : runSteps (n + 1) s = runSteps n t := by
  rw [runSteps, h]

/-- A state with no successor ends the run (R96). -/
theorem runSteps_of_stop {s : State} (h : ∀ t, step s ≠ .next t) (n : Nat) : runSteps n s = s := by
  cases n with
  | zero => rfl
  | succ n =>
    rw [runSteps]
    split
    · rename_i t ht
      exact absurd ht (h t)
    · rfl
    · rfl

theorem runSteps_of_fault {s : State} {f : Fault} (h : step s = .fault f) (n : Nat) : runSteps n s = s :=
  runSteps_of_stop (fun t => by rw [h]; nofun) n

theorem runSteps_of_isFaulted {s : State} (h : s.isFaulted = true) (n : Nat) : runSteps n s = s := by
  obtain ⟨reason, info, hrun⟩ := (State.isFaulted_iff s).1 h
  exact runSteps_of_fault (step_of_faulted hrun) n

theorem runSteps_of_fixed {s : State} (h : step s = .next s) (n : Nat) : runSteps n s = s := by
  induction n with
  | zero => rfl
  | succ n ih => rw [runSteps_of_next h, ih]

/-- Steps add up: a stop in the first part is the end of the second part too. -/
theorem runSteps_add (m n : Nat) (s : State) : runSteps (m + n) s = runSteps n (runSteps m s) := by
  induction m generalizing s with
  | zero => rw [Nat.zero_add, runSteps]
  | succ m ih =>
    by_cases h : ∃ t, step s = .next t
    · obtain ⟨t, ht⟩ := h
      rw [Nat.succ_add, runSteps_of_next ht, runSteps_of_next ht, ih]
    · have hstop : ∀ t, step s ≠ .next t := fun t ht => h ⟨t, ht⟩
      rw [runSteps_of_stop hstop, runSteps_of_stop hstop, runSteps_of_stop hstop]

theorem stepBatch_of_isFaulted {s : State} (h : s.isFaulted = true) (n : Nat) (keys : BitVec 16) :
    stepBatch n keys s = s := if_pos h

theorem stepBatch_of_not_faulted {s : State} (h : s.isFaulted = false) (n : Nat) (keys : BitVec 16) :
    stepBatch n keys s = runSteps n { s with keys := keys } := by
  rw [stepBatch, h]
  rfl

/-- Settles O8: the stop of `step`, and the guard of a batch. -/
theorem faultedEngineHasNoStep : Obligations.FaultedEngineHasNoStep := by
  unfold Obligations.FaultedEngineHasNoStep
  intro s reason info h
  have hf : s.isFaulted = true := (State.isFaulted_iff s).2 ⟨reason, info, h⟩
  exact ⟨step_of_faulted h, stepBatch_of_isFaulted hf⟩

/-- With no key latched a waiting engine waits on, however many steps it is given (R97). -/
theorem stepBatch_noKey {s : State} {x : Reg} (h : s.runState = .awaitingKey x) (n : Nat) :
    stepBatch n 0 s = { s with keys := 0 } := by
  have hstep : step { s with keys := 0 } = .next { s with keys := 0 } := by
    rw [step_of_awaitingKey (s := { s with keys := 0 }) h, keyWaitService_of_noKey x _ rfl]
  rw [stepBatch_of_not_faulted (State.not_isFaulted_of_awaitingKey s h), runSteps_of_fixed hstep]

/-- Settles O10, clause by clause from the equations of `runSteps` and `stepBatch`. -/
theorem batchesLatchKeysAndAddUp : Obligations.BatchesLatchKeysAndAddUp := by
  unfold Obligations.BatchesLatchKeysAndAddUp
  refine ⟨?reply, ?latch, ?none, ?more, ?fault, ?stop, ?empty, ?add, ?wait⟩
  case reply => exact fun n keys s => rfl
  case latch => exact fun n keys s hf => stepBatch_of_not_faulted hf n keys
  case none => exact fun s => rfl
  case more => exact fun n s t h => runSteps_of_next h n
  case fault =>
    intro n s t h hf
    rw [runSteps_of_next h, runSteps_of_isFaulted hf]
  case stop => exact fun n s f h => runSteps_of_fault h n
  case empty => exact fun s keys hf => stepBatch_of_not_faulted hf 0 keys
  case add => exact runSteps_add
  case wait => exact fun n s x h => stepBatch_noKey h n

theorem safeRun_of_fixed {s : State} (hf : s.isFaulted = false) (h : step s = .next s) (n : Nat) : SafeRun n s := by
  induction n with
  | zero => exact hf
  | succ n ih => exact ⟨hf, s, h, ih⟩

/-- Settles O12: a jump to its own address undoes the pc's advance, so the state is a fixed point of `step`. -/
theorem selfJumpLoopsForever : Obligations.SelfJumpLoopsForever := by
  unfold Obligations.SelfJumpLoopsForever
  intro n s hrun hpc hdecode
  have hfixed : step s = .next s := by
    rw [step_of_instr hrun hpc hdecode, exec_jp]
    have hback : (advancePc s).setPc s.pc.toNat = s := by
      simp [advancePc, State.setPc]
    rw [hback]
  exact ⟨safeRun_of_fixed (State.not_isFaulted_of_running s hrun) hfixed n, runSteps_of_fixed hfixed n⟩

/-- Settles O58: memory is all zero at construction, so the word at address 0 is 0, which is undefined. -/
theorem unloadedEngineFaults : Obligations.UnloadedEngineFaults := by
  unfold Obligations.UnloadedEngineFaults
  have hword : fetchedWord State.reset = 0 := rfl
  have hundef : decode (fetchedWord State.reset) = .undefined 0 := by
    rw [hword]
    decide
  exact ⟨undefinedFault State.reset, step_of_undefined rfl (by decide) hundef, rfl⟩

end Sys2Proof.Machine
end

section
/-! Control flow (41_control_flow.md) and the key skips (45_keys_timers.md section 1): what CALL, RET, the skips and the
jump with offset do, and the obligations about them. -/

namespace Sys2Proof.Machine

/-! ### CALL and RET (R111, R113) -/

theorem exec_call_of_lt (nnn : Word) {s : State} (h : s.sp < 24) : exec (.call nnn) s =
    .next (State.setPc { s with stack := s.stack.setIfInBounds s.sp s.pc, sp := s.sp + 1 } nnn.toNat) :=
  if_neg (Nat.not_le.2 h)

theorem exec_call_of_full (nnn : Word) {s : State} (h : 24 ≤ s.sp) :
    exec (.call nnn) s = faultIn .stackOverflow (.call nnn) s := if_pos h

theorem exec_ret_of_empty {s : State} (h : s.sp = 0) : exec .ret s = faultIn .stackUnderflow .ret s := if_pos h

theorem exec_ret_of_outOfBounds {s : State} (hsp : 0 < s.sp) (h : 4096 ≤ (s.stackEntry (s.sp - 1)).toNat) :
    exec .ret s = faultIn .returnOutOfBounds .ret s := by
  rw [exec, execRet, if_neg hsp.ne']
  exact if_pos h

theorem exec_ret_of_lt {s : State} (hsp : 0 < s.sp) (h : (s.stackEntry (s.sp - 1)).toNat < 4096) : exec .ret s =
    .next (State.setPc { s with sp := s.sp - 1 } (s.stackEntry (s.sp - 1)).toNat) := by
  rw [exec, execRet, if_neg hsp.ne']
  exact if_neg (Nat.not_le.2 h)

/-- Settles O13: below 24 entries CALL is a push and a jump. -/
theorem callPushesAndJumps : Obligations.CallPushesAndJumps := by
  unfold Obligations.CallPushesAndJumps
  intro nnn s
  refine ⟨fun hlt => ?_, fun hfull => faultsWith_of_eq (exec_call_of_full nnn hfull.ge)⟩
  refine ⟨_, exec_call_of_lt nnn hlt, ?_, fun k hk => ?_, rfl, State.setPc_toNat_pc nnn _, ?_⟩
  · rw [State.setPc_stackEntry, State.stackEntry_push hlt, if_pos rfl]
  · rw [State.setPc_stackEntry, State.stackEntry_push hlt, if_neg hk]
  · exact ((frame_stack s _ _).trans (frame_setPc _ _)).mono (by simp) (by simp)

/-- Settles O14, in the order RET checks. -/
theorem returnPopsOrFaults : Obligations.ReturnPopsOrFaults := by
  unfold Obligations.ReturnPopsOrFaults
  intro s
  refine ⟨fun hempty => faultsWith_of_eq (exec_ret_of_empty hempty),
    fun hsp hout => faultsWith_of_eq (exec_ret_of_outOfBounds hsp hout), fun hsp hlt => ?_⟩
  refine ⟨_, exec_ret_of_lt hsp hlt, State.setPc_toNat_pc _ _, rfl, rfl, ?_⟩
  exact ((frame_stack s s.stack (s.sp - 1)).trans (frame_setPc _ _)).mono (by simp) (by simp)

/-- Settles O15: the top entry of the stack as CALL left it is the pc CALL pushed, a legal return address. -/
theorem callThenReturnRestoresPc : Obligations.CallThenReturnRestoresPc := by
  unfold Obligations.CallThenReturnRestoresPc
  intro nnn s hsp hpc
  refine ⟨_, exec_call_of_lt nnn hsp, fun u husp hustack => ?_⟩
  replace husp : u.sp = s.sp + 1 := husp
  have htop : u.stackEntry (u.sp - 1) = s.pc := by
    have hpush := State.stackEntry_push hsp s.sp
    rw [if_pos rfl] at hpush
    rw [husp, State.stackEntry, hustack]
    exact hpush
  refine ⟨_, exec_ret_of_lt (by omega) (by rw [htop]; exact hpc), ?_, ?_⟩
  · rw [State.setPc_toNat_pc, htop]
  · rw [State.setPc_sp, husp]
    rfl

/-! ### Skips (R110) -/

/-- An instruction that is a conditional skip does what R110 says of one. -/
theorem skipsWhen_of_skipIf {c : Bool} {condition : Prop} {i : Instr} {s : State} (hc : c = true ↔ condition)
    (h : exec i s = skipIf c i s) : SkipsWhen condition i s := by
  refine ⟨fun hcond hlt => ?_, fun hcond hout => ?_, fun hcond => ?_⟩
  · have hskip : exec i s = .next (s.setPc (s.pc.toNat + 2)) := by
      rw [h, hc.2 hcond]
      exact if_neg (Nat.not_le.2 hlt)
    exact ⟨_, hskip, State.setPc_pc_toNat s _ (by omega), frame_setPc s _⟩
  · have hfault : exec i s = faultIn .skipOutOfBounds i s := by
      rw [h, hc.2 hcond]
      exact if_pos hout
    exact faultsWith_of_eq hfault
  · rw [h, skipIf, if_neg fun e => hcond (hc.1 e)]

/-- Settles O16: each of the four is a skip on its comparison. -/
theorem skipsOnRegisterComparison : Obligations.SkipsOnRegisterComparison := by
  unfold Obligations.SkipsOnRegisterComparison
  intro x y nn s
  exact ⟨skipsWhen_of_skipIf decide_eq_true_iff rfl, skipsWhen_of_skipIf decide_eq_true_iff rfl,
    skipsWhen_of_skipIf decide_eq_true_iff rfl, skipsWhen_of_skipIf decide_eq_true_iff rfl⟩

theorem validIndex_of_lt {b : Byte} (h : b.toNat < 16) : validIndex b = true := decide_eq_true h

theorem validIndex_of_le {b : Byte} (h : 16 ≤ b.toNat) : validIndex b = false := decide_eq_false (Nat.not_lt.2 h)

/-- Settles O40: the index is checked first; a valid one makes each of the two a skip on that key. -/
theorem keySkipsTestOneKey : Obligations.KeySkipsTestOneKey := by
  unfold Obligations.KeySkipsTestOneKey
  intro x s
  refine ⟨fun hvalid => ⟨?_, ?_⟩, fun hinvalid => ⟨?_, ?_⟩⟩
  · refine skipsWhen_of_skipIf (c := s.keyPressed (s.v x).toNat) Iff.rfl ?_
    rw [exec, execSkp, validIndex_of_lt hvalid, if_pos rfl]
  · refine skipsWhen_of_skipIf (c := !s.keyPressed (s.v x).toNat) (Iff.of_eq (Bool.not_eq_true' _)) ?_
    rw [exec, execSknp, validIndex_of_lt hvalid, if_pos rfl]
  · apply faultsWith_of_eq
    rw [exec, execSkp, validIndex_of_le hinvalid, if_neg Bool.false_ne_true]
  · apply faultsWith_of_eq
    rw [exec, execSknp, validIndex_of_le hinvalid, if_neg Bool.false_ne_true]

/-! ### Jump with offset (R118) -/

/-- Settles O17: the unwrapped sum is tested once, and fits a pc where it is a memory address. -/
theorem jumpWithOffsetAddsV0 : Obligations.JumpWithOffsetAddsV0 := by
  unfold Obligations.JumpWithOffsetAddsV0
  intro nnn s
  refine ⟨fun hlt => ?_, fun hout => faultsWith_of_eq (if_pos hout)⟩
  have hjump : exec (.jpV0 nnn) s = .next (s.setPc (nnn.toNat + (s.v 0).toNat)) := if_neg (Nat.not_le.2 hlt)
  exact ⟨_, hjump, State.setPc_pc_toNat s _ (by omega), frame_setPc s _⟩

end Sys2Proof.Machine
end

section
/-! The ALU group and random (42_register_alu.md sections 3 to 5): the values of the results and flags, and the
obligations about them. -/

namespace Sys2Proof.Machine

/-! ### Results and flags as numbers (R137 to R141) -/

/-- A byte made of an integer difference modulo 256 has that value. -/
theorem toNat_subResult (a b : Byte) : ((subResult a b).toNat : Int) = ((a.toNat : Int) - (b.toNat : Int)) % 256 := by
  rw [subResult, BitVec.toNat_ofInt]
  omega

@[simp] theorem toNat_shrResult (src : Byte) : (shrResult src).toNat = src.toNat / 2 := by
  have := src.isLt
  rw [shrResult, BitVec.toNat_ofNat]
  omega

@[simp] theorem toNat_shlResult (src : Byte) : (shlResult src).toNat = src.toNat * 2 % 256 := by
  rw [shlResult, BitVec.toNat_ofNat]
  omega

theorem toNat_flagByte_addCarry (a b : Byte) :
    (flagByte (addCarry a b)).toNat = if a.toNat + b.toNat > 255 then 1 else 0 := by
  simp only [toNat_flagByte, addCarry, decide_eq_true_eq]

theorem toNat_flagByte_notBorrow (a b : Byte) :
    (flagByte (notBorrow a b)).toNat = if a.toNat ≥ b.toNat then 1 else 0 := by
  simp only [toNat_flagByte, notBorrow, decide_eq_true_eq]

theorem toNat_flagByte_shrFlag (src : Byte) : (flagByte (shrFlag src)).toNat = src.toNat % 2 := by
  have hbit : shrFlag src = decide (src.toNat % 2 = 1) := Nat.testBit_zero _
  rw [toNat_flagByte, hbit]
  simp only [decide_eq_true_eq]
  split <;> omega

theorem toNat_flagByte_shlFlag (src : Byte) : (flagByte (shlFlag src)).toNat = src.toNat / 128 := by
  have hbit : shlFlag src = decide (src.toNat / 2 ^ 7 % 2 = 1) := Nat.testBit_eq_decide_div_mod_eq
  have := src.isLt
  rw [toNat_flagByte, hbit]
  simp only [decide_eq_true_eq]
  split <;> omega

/-! ### The obligations -/

/-- Settles O19: each of the four is one register write. -/
theorem assignAndLogic : Obligations.AssignAndLogic := by
  unfold Obligations.AssignAndLogic
  intro x y s
  refine ⟨⟨_, rfl, State.v_setV_same _ _ _, frame_setV _ _ _⟩, ⟨_, rfl, fun k => ?_, frame_setV _ _ _⟩,
    ⟨_, rfl, fun k => ?_, frame_setV _ _ _⟩, ⟨_, rfl, fun k => ?_, frame_setV _ _ _⟩⟩
  · rw [State.v_setV_same, BitVec.getLsbD_or]
  · rw [State.v_setV_same, BitVec.getLsbD_and]
  · rw [State.v_setV_same, BitVec.getLsbD_xor]

/-- With neither operand VF a flag-writing ALU operation completes: the result is in V[X], the flag in VF, and nothing
else changes (R132). -/
theorem aluFlag_completes {i : Instr} {x y : Reg} {result : Byte} {flag : Bool} {s : State}
    (h : exec i s = aluFlag i x y result flag s) (hx : x ≠ 15) (hy : y ≠ 15) :
    ∃ t, exec i s = .next t ∧ t.v x = result ∧ t.v 15 = flagByte flag ∧ Frame [] [x, 15] s t :=
  ⟨_, h.trans (aluFlag_of_ne i result flag s hx hy), v_result_of_aluFlag s result _ hx, State.v_setV_same _ _ _,
    frame_setV_vf s x result _⟩

/-- Settles O20: the result is the sum modulo 256, the flag its carry. -/
theorem addSetsCarry : Obligations.AddSetsCarry := by
  unfold Obligations.AddSetsCarry
  intro x y s hx hy
  obtain ⟨t, ht, hresult, hflag, hframe⟩ := aluFlag_completes (i := .addReg x y) (s := s) rfl hx hy
  exact ⟨t, ht, by rw [hresult, toNat_addResult], by rw [hflag, toNat_flagByte_addCarry], hframe⟩

/-- Settles O21: SUBN is SUB with the operands exchanged, in the result and in the flag. -/
theorem subtractSetsNotBorrow : Obligations.SubtractSetsNotBorrow := by
  unfold Obligations.SubtractSetsNotBorrow
  intro x y s hx hy
  constructor
  · obtain ⟨t, ht, hresult, hflag, hframe⟩ := aluFlag_completes (i := .subReg x y) (s := s) rfl hx hy
    exact ⟨t, ht, by rw [hresult, toNat_subResult], by rw [hflag, toNat_flagByte_notBorrow], hframe⟩
  · obtain ⟨t, ht, hresult, hflag, hframe⟩ := aluFlag_completes (i := .subnReg x y) (s := s) rfl hx hy
    exact ⟨t, ht, by rw [hresult, toNat_subResult], by rw [hflag, toNat_flagByte_notBorrow], hframe⟩

/-- Settles O22: the operand is the one SHIFT_SOURCE selects. -/
theorem shiftsMoveOneBit : Obligations.ShiftsMoveOneBit := by
  unfold Obligations.ShiftsMoveOneBit
  intro x y s src hx hy hsrc
  have hoperand : src = (shiftOperand x y s).toNat := by
    rw [hsrc, shiftOperand]
    cases s.params.shiftSource <;> rfl
  rw [hoperand]
  constructor
  · obtain ⟨t, ht, hresult, hflag, hframe⟩ := aluFlag_completes (i := .shr x y) (s := s) rfl hx hy
    exact ⟨t, ht, by rw [hresult, toNat_shrResult], by rw [hflag, toNat_flagByte_shrFlag], hframe⟩
  · obtain ⟨t, ht, hresult, hflag, hframe⟩ := aluFlag_completes (i := .shl x y) (s := s) rfl hx hy
    exact ⟨t, ht, by rw [hresult, toNat_shlResult], by rw [hflag, toNat_flagByte_shlFlag], hframe⟩

/-- Settles O23: the flag check comes before the operands are used. -/
theorem flagRegisterOperandFaults : Obligations.FlagRegisterOperandFaults := by
  unfold Obligations.FlagRegisterOperandFaults
  intro x y s h
  exact ⟨faultsWith_of_eq (aluFlag_of_eq _ _ _ s h), faultsWith_of_eq (aluFlag_of_eq _ _ _ s h),
    faultsWith_of_eq (aluFlag_of_eq _ _ _ s h), faultsWith_of_eq (aluFlag_of_eq _ _ _ s h),
    faultsWith_of_eq (aluFlag_of_eq _ _ _ s h)⟩

/-- RND takes the next draw and writes it under the mask, in every state (R142). -/
theorem exec_rnd (x : Reg) (nn : Byte) (s : State) : exec (.rnd x nn) s =
    .next (State.setV { s with draws := s.draws + 1 } x (Config.drawRandom s.draws &&& nn)) := rfl

/-- Settles O24: the mask clears its zero bits whatever the draw. -/
theorem randomIsMaskedDraw : Obligations.RandomIsMaskedDraw := by
  unfold Obligations.RandomIsMaskedDraw
  intro x nn s
  refine ⟨_, exec_rnd x nn s, State.v_setV_same _ _ _, rfl, fun k hk => ?_,
    (frame_draws s _).trans (frame_setV _ _ _)⟩
  rw [State.v_setV_same, BitVec.getLsbD_and, hk, Bool.and_false]

end Sys2Proof.Machine
end

section
/-! Index and memory (43_index_memory.md): additions to I, the decimal digits and the block transfers, and the
obligations about them. -/

namespace Sys2Proof.Machine

/-! ### The address register (R161, R162) -/

/-- Settles O26: the sum is tested once, and fits I where it is a memory address. -/
theorem addToIndexOrFaults : Obligations.AddToIndexOrFaults := by
  unfold Obligations.AddToIndexOrFaults
  intro x s
  refine ⟨fun hlt => ?_, fun hout => faultsWith_of_eq (if_pos hout)⟩
  have hadd : exec (.addI x) s = .next (s.setI (s.i.toNat + (s.v x).toNat)) := if_neg (Nat.not_le.2 hlt)
  exact ⟨_, hadd, State.setI_i_toNat s _ (by omega), frame_setI s _⟩

/-- Settles O27: an index below 16 gives one of the 16 glyph addresses, all of which fit I. -/
theorem glyphAddressOrFaults : Obligations.GlyphAddressOrFaults := by
  unfold Obligations.GlyphAddressOrFaults
  intro x s
  refine ⟨fun hvalid => ?_, fun hinvalid => faultsWith_of_eq ?_⟩
  · have hglyph : exec (.ldF x) s = .next (s.setI (0x010 + 5 * (s.v x).toNat)) := if_pos (validIndex_of_lt hvalid)
    exact ⟨_, hglyph, State.setI_i_toNat s _ (by omega), frame_setI s _⟩
  · rw [exec, execLdF, validIndex_of_le hinvalid, if_neg Bool.false_ne_true]

/-! ### Transfers from I on (R163, R164, R165) -/

theorem inBounds_of_le {a n : Nat} (h : a + n ≤ 4096) : inBounds a n = true := decide_eq_true h

theorem inBounds_of_lt {a n : Nat} (h : 4096 < a + n) : inBounds a n = false := decide_eq_false (Nat.not_le.2 h)

theorem exec_ldB_of_fits {s : State} (x : Reg) (h : s.i.toNat + 3 ≤ 4096) : exec (.ldB x) s =
    .next { s with mem := s.mem.writeBytes s.i.toNat (decimalDigits (s.v x)) } := if_pos (inBounds_of_le h)

theorem exec_storeRegs_of_fits {s : State} (x : Reg) (h : s.i.toNat + x.val + 1 ≤ 4096) : exec (.storeRegs x) s =
    .next { s with mem := s.mem.writeBytes s.i.toNat (s.regs.toList.take (x.val + 1)) } :=
  if_pos (inBounds_of_le h)

theorem exec_loadRegs_of_fits {s : State} (x : Reg) (h : s.i.toNat + x.val + 1 ≤ 4096) : exec (.loadRegs x) s =
    .next { s with regs := Vector.ofFn fun k : Reg => if k ≤ x then s.mem.read (s.i.toNat + k.val) else s.v k } :=
  if_pos (inBounds_of_le h)

/-- Bytes written inside memory leave every byte outside their range as it was. -/
theorem sameMemOutside_writeBytes (s : State) (a : Nat) {n : Nat} {bs : List Byte} (hn : bs.length = n) :
    SameMemOutside a n s { s with mem := s.mem.writeBytes a bs } :=
  fun k hk => Memory.read_writeBytes_outside s.mem a k bs (by rw [hn]; exact hk)

/-- The three digits stored from `a` on are read back at their places, hundreds first (R163). -/
theorem read_storedDigits {m : Memory} {a : Nat} (b : Byte) (hmem : m.wf = true) (hfit : a + 3 ≤ 4096) :
    (m.writeBytes a (decimalDigits b)).read a = BitVec.ofNat 8 (b.toNat / 100) ∧
      (m.writeBytes a (decimalDigits b)).read (a + 1) = BitVec.ofNat 8 (b.toNat / 10 % 10) ∧
      (m.writeBytes a (decimalDigits b)).read (a + 2) = BitVec.ofNat 8 (b.toNat % 10) := by
  have hread := Memory.read_writeBytes a (decimalDigits b) hmem hfit
  exact ⟨hread 0 (by decide : 0 < 3), hread 1 (by decide : 1 < 3), hread 2 (by decide : 2 < 3)⟩

/-- Settles O28: each digit is below 256, so the byte that holds it has its value. -/
theorem decimalDigitsAreStored : Obligations.DecimalDigitsAreStored := by
  unfold Obligations.DecimalDigitsAreStored
  intro x s hmem
  refine ⟨fun hfit => ?_, fun hout => faultsWith_of_eq ?_⟩
  · obtain ⟨hhundreds, htens, hunits⟩ := read_storedDigits (s.v x) hmem hfit
    have hbyte := (s.v x).isLt
    refine ⟨_, exec_ldB_of_fits x hfit, ?_, ?_, ?_, sameMemOutside_writeBytes s _ rfl, frame_mem s _⟩
    · rw [hhundreds, BitVec.toNat_ofNat]
      omega
    · rw [htens, BitVec.toNat_ofNat]
      omega
    · rw [hunits, BitVec.toNat_ofNat]
      omega
  · rw [exec, execLdB, inBounds_of_lt hout, if_neg Bool.false_ne_true]

theorem length_take_regs (s : State) (x : Reg) : (s.regs.toList.take (x.val + 1)).length = x.val + 1 := by
  have := x.isLt
  rw [List.length_take, Vector.length_toList]
  omega

/-- Each register stored from `a` on is read back at its place (R164). -/
theorem read_storedRegs {s : State} {x k : Reg} (hmem : s.mem.wf = true) (hfit : s.i.toNat + x.val + 1 ≤ 4096)
    (hk : k ≤ x) :
    (s.mem.writeBytes s.i.toNat (s.regs.toList.take (x.val + 1))).read (s.i.toNat + k.val) = s.v k := by
  have hlen := length_take_regs s x
  have hlt : k.val < (s.regs.toList.take (x.val + 1)).length := by
    have := Fin.le_def.1 hk
    omega
  rw [Memory.read_writeBytes s.i.toNat _ hmem (by rw [hlen]; exact hfit) k.val hlt]
  simp [State.v]

/-- Settles O29: the bytes written are the first X + 1 registers. -/
theorem registersAreStored : Obligations.RegistersAreStored := by
  unfold Obligations.RegistersAreStored
  intro x s hmem
  refine ⟨fun hfit => ?_, fun hout => faultsWith_of_eq ?_⟩
  · exact ⟨_, exec_storeRegs_of_fits x hfit, fun k hk => read_storedRegs hmem hfit hk,
      sameMemOutside_writeBytes s _ (length_take_regs s x), frame_mem s _⟩
  · have hbounds : inBounds s.i.toNat (x.val + 1) = false := inBounds_of_lt hout
    rw [exec, execStoreRegs, hbounds, if_neg Bool.false_ne_true]

/-- A register loaded from `a` on holds the byte at its place (R165). -/
theorem v_loadedRegs (s : State) {x k : Reg} (hk : k ≤ x) : State.v { s with
    regs := Vector.ofFn fun k : Reg => if k ≤ x then s.mem.read (s.i.toNat + k.val) else s.v k } k =
      s.mem.read (s.i.toNat + k.val) := by
  rw [v_ofFn, if_pos hk]

/-- Settles O30: the registers written are V0 to VX, each from its own place. -/
theorem registersAreLoaded : Obligations.RegistersAreLoaded := by
  unfold Obligations.RegistersAreLoaded
  intro x s
  refine ⟨fun hfit => ?_, fun hout => faultsWith_of_eq ?_⟩
  · exact ⟨_, exec_loadRegs_of_fits x hfit, fun k hk => v_loadedRegs s hk, frame_loadRegs s x _⟩
  · have hbounds : inBounds s.i.toNat (x.val + 1) = false := inBounds_of_lt hout
    rw [exec, execLoadRegs, hbounds, if_neg Bool.false_ne_true]

/-- Settles O31: what the load reads at each place is what the store put there. -/
theorem storeThenLoadRestoresRegisters : Obligations.StoreThenLoadRestoresRegisters := by
  unfold Obligations.StoreThenLoadRestoresRegisters
  intro x s hmem hfit
  refine ⟨_, exec_storeRegs_of_fits x hfit, fun u humem hui => ?_⟩
  refine ⟨_, exec_loadRegs_of_fits x (by rw [hui]; exact hfit), fun k hk => ?_⟩
  rw [v_loadedRegs u hk, humem, hui]
  exact read_storedRegs hmem hfit hk

end Sys2Proof.Machine
end

section
/-! The host's operations (44_display.md section 4, 60_exceptions.md sections 3 to 6, 70_reset_and_hazards.md sections
1 and 2): the queries, Commit, Tick and Load, and the obligations about them. -/

namespace Sys2Proof.Machine

/-! ### The display's host operations (R185, R186, R187) -/

theorem length_frameBuffer (m : Memory) : m.frameBuffer.length = 256 := Memory.length_readBytes m _ _

theorem getElem_frameBuffer (m : Memory) (k : Nat) (h : k < m.frameBuffer.length) :
    m.frameBuffer[k] = m.read (0xF00 + k) := Memory.getElem_readBytes m _ _ k h

/-- The redraw query tests the shadow against the frame buffer byte by byte (R185). -/
theorem needsRedraw_iff (s : State) :
    needsRedraw s = true ↔ ∃ (k : Nat) (h : k < 256), s.shadow[k] ≠ s.mem.read (0xF00 + k) := by
  have hlen : s.shadow.toList.length = s.mem.frameBuffer.length := by
    rw [Vector.length_toList, length_frameBuffer]
  have heq : s.shadow.toList = s.mem.frameBuffer ↔
      ∀ (k : Nat) (_ : k < 256), s.shadow[k] = s.mem.read (0xF00 + k) := by
    simp [List.ext_getElem_iff, hlen, length_frameBuffer, getElem_frameBuffer]
  rw [needsRedraw, decide_eq_true_eq, ne_eq, heq]
  simp only [not_forall, ne_eq]

/-- Settles O37: the query is a comparison of 256 bytes. -/
theorem redrawQueryComparesShadow : Obligations.RedrawQueryComparesShadow := by
  unfold Obligations.RedrawQueryComparesShadow
  intro s _
  exact ⟨rfl, needsRedraw s, rfl, needsRedraw_iff s⟩

theorem commit_shadow (s : State) : (commit s).shadow = frameBufferCopy s.mem := rfl

theorem commit_mem (s : State) : (commit s).mem = s.mem := by simp only [commit]

theorem getElem_commit_shadow (s : State) (k : Nat) (h : k < 256) : (commit s).shadow[k] = s.mem.read (0xF00 + k) := by
  simp only [commit_shadow, getElem_frameBufferCopy]

theorem needsRedraw_commit (s : State) : needsRedraw (commit s) = false := by
  rw [← Bool.not_eq_true, needsRedraw_iff]
  rintro ⟨k, hk, hne⟩
  rw [commit_mem] at hne
  exact hne (getElem_commit_shadow s k hk)

/-- Settles O38: the shadow becomes the frame buffer, which the query then compares it with. -/
theorem commitCopiesFrameBuffer : Obligations.CommitCopiesFrameBuffer := by
  unfold Obligations.CommitCopiesFrameBuffer
  intro s _
  exact ⟨commit s, rfl, getElem_commit_shadow s, rfl, congrArg Reply.flag (needsRedraw_commit s)⟩

/-- Settles O39: each query answers the state it was given and what it reads of it. -/
theorem queriesReturnState : Obligations.QueriesReturnState := by
  unfold Obligations.QueriesReturnState
  intro s
  refine ⟨fun _ => ⟨?frameBuffer, ?sound, ?dump⟩, rfl⟩
  case frameBuffer => exact ⟨s.mem.frameBuffer, rfl, length_frameBuffer s.mem, getElem_frameBuffer s.mem⟩
  case sound => exact ⟨soundOn s, rfl, soundOn_iff s⟩
  case dump => exact ⟨s.dumpView, rfl, rfl, rfl, rfl, rfl, rfl, rfl, rfl⟩

/-! ### Tick (R229 to R231) -/

theorem tick_of_isFaulted {s : State} (h : s.isFaulted = true) : tick s = s := if_pos h

theorem tick_of_not_faulted {s : State} (h : s.isFaulted = false) :
    tick s = { s with dt := tickTimer s.dt, st := tickTimer s.st } := by
  rw [tick, h]
  rfl

theorem toNat_tickTimer (t : Byte) : (tickTimer t).toNat = t.toNat - 1 := by
  have := t.isLt
  rw [tickTimer, BitVec.toNat_ofNat]
  omega

/-- Settles O43: natural subtraction floors at 0, and ST is above 0 after the tick where it was above 1. -/
theorem tickCountsTimersDown : Obligations.TickCountsTimersDown := by
  unfold Obligations.TickCountsTimersDown
  intro s
  refine ⟨tick s, rfl, tick_of_isFaulted, fun hf => ?_⟩
  rw [tick_of_not_faulted hf, soundOn_iff, toNat_tickTimer, toNat_tickTimer]
  refine ⟨rfl, rfl, rfl, ?_⟩
  omega

/-! ### Load (R251, R252, R254) -/

theorem loadFits_iff (image : List Byte) (species : Species) :
    loadFits image species = true ↔ image.length + loadOffset species < 4096 := decide_eq_true_iff

/-- Settles O57: the fit is tested before anything is written. -/
theorem loadFailureChangesNothing : Obligations.LoadFailureChangesNothing := by
  unfold Obligations.LoadFailureChangesNothing
  intro image species s hsize
  have hfits : loadFits image species = false := by
    rw [← Bool.not_eq_true, loadFits_iff]
    cases species <;> exact Nat.not_lt.2 hsize
  rw [hostOp, load_of_not_fits s hfits]

/-- Memory after a Load that succeeds: the image, then the glyphs (R251). -/
def loadedMem (image : List Byte) (species : Species) (s : State) : Memory :=
  (s.mem.writeBytes (loadOffset species) image).writeBytes glyphBase s.params.glyphData.toList

theorem hostOp_load_of_fits {image : List Byte} {species : Species} (s : State)
    (h : image.length + loadOffset species < 4096) : hostOp (.load image species) s =
      (State.setPc { s with mem := loadedMem image species s } (loadOffset species), .loaded true) := by
  rw [hostOp, load_of_fits s ((loadFits_iff image species).2 h), loadedMem]

/-- The glyphs end below both load offsets. -/
theorem glyphs_below_loadOffset (species : Species) : 0x060 ≤ loadOffset species := by
  cases species <;> decide

theorem read_loadedMem_image {image : List Byte} {species : Species} {s : State} (hmem : s.mem.wf = true)
    (h : image.length + loadOffset species < 4096) {k : Nat} (hk : k < image.length) :
    (loadedMem image species s).read (loadOffset species + k) = image[k] := by
  have hglyphs := glyphs_below_loadOffset species
  rw [loadedMem, Memory.read_writeBytes_outside _ _ _ _ (Or.inr ?_)]
  · exact Memory.read_writeBytes _ image hmem (by simp only [memSize]; omega) k hk
  · rw [Vector.length_toList]
    simp only [glyphBase]
    omega

theorem read_loadedMem_glyph (image : List Byte) (species : Species) {s : State} (hmem : s.mem.wf = true) {k : Nat}
    (hk : k < 80) : (loadedMem image species s).read (0x010 + k) = s.params.glyphData[k] := by
  have hlen : s.params.glyphData.toList.length = 80 := Vector.length_toList
  rw [loadedMem, Memory.read_writeBytes glyphBase _ (Memory.wf_writeBytes _ _ hmem) (by rw [hlen]; decide) k
    (by rw [hlen]; exact hk)]
  exact Vector.getElem_toList _

theorem read_loadedMem_outside (image : List Byte) (species : Species) (s : State) {a : Nat}
    (hglyphs : a < 0x010 ∨ 0x060 ≤ a) (himage : a < loadOffset species ∨ loadOffset species + image.length ≤ a) :
    (loadedMem image species s).read a = s.mem.read a := by
  rw [loadedMem, Memory.read_writeBytes_outside _ _ _ _ (by rw [Vector.length_toList]; exact hglyphs),
    Memory.read_writeBytes_outside _ _ _ _ himage]

theorem setPc_loadOffset (s : State) (species : Species) :
    (s.setPc (loadOffset species)).pc.toNat = loadOffset species :=
  State.setPc_pc_toNat s _ (Nat.lt_of_le_of_lt (loadOffset_le species) (by decide))

/-- Settles O56: the image range and the glyph range do not meet, so each byte written is read back. -/
theorem loadPlacesImageAndGlyphs : Obligations.LoadPlacesImageAndGlyphs := by
  unfold Obligations.LoadPlacesImageAndGlyphs
  intro image species s hmem _ hsize
  have hfits : image.length + loadOffset species < 4096 := by
    cases species <;> exact hsize
  refine ⟨_, hostOp_load_of_fits s hfits, ?_⟩
  simp only [setPc_loadOffset]
  refine ⟨by cases species <;> rfl, fun k hk => read_loadedMem_image hmem hfits hk,
    fun k hk => read_loadedMem_glyph image species hmem hk,
    fun a hglyphs himage => read_loadedMem_outside image species s hglyphs himage, rfl⟩

/-- Settles O59: the word fetched at the entry point is made of the image's first two bytes. -/
theorem loadedImageRunsFromEntry : Obligations.LoadedImageRunsFromEntry := by
  unfold Obligations.LoadedImageRunsFromEntry
  intro hi lo rest species s i hmem hrun hsize hi'
  have hfits : (hi :: lo :: rest).length + loadOffset species < 4096 := by
    cases species <;> exact hsize
  refine ⟨_, hostOp_load_of_fits s hfits, ?_, hrun, ?_⟩
  · rw [setPc_loadOffset]
    cases species <;> rfl
  · have hhi : (loadedMem (hi :: lo :: rest) species s).read (loadOffset species) = hi :=
      read_loadedMem_image hmem hfits (k := 0) (by simp)
    have hlo : (loadedMem (hi :: lo :: rest) species s).read (loadOffset species + 1) = lo :=
      read_loadedMem_image hmem hfits (k := 1) (by simp)
    rw [← advancePc_eq]
    refine step_of_instr (by exact hrun) ?_ ?_
    · rw [setPc_loadOffset]
      cases species <;> decide
    · rw [fetchedWord, setPc_loadOffset, State.setPc_mem, hhi, hlo]
      exact hi'

end Sys2Proof.Machine
end

section
/-! Display (44_display.md): clearing it, a sprite row by row and as a whole, and the obligations about them. -/

namespace Sys2Proof.Machine

/-! ### Pixels and bytes (R180, R181) -/

/-- CLS answers a next state in every state (R181). -/
theorem exec_cls (s : State) : exec .cls s = .next { s with mem := clearFrameBuffer s.mem } := rfl

theorem pixelAddress_eq (px py : Nat) : pixelAddress px py = 0xF00 + (8 * py + px / 8) := Nat.add_assoc _ _ _

theorem pixel_clearFrameBuffer {m : Memory} (h : m.wf = true) {px py : Nat} (hx : px < 64) (hy : py < 32) :
    (clearFrameBuffer m).pixel px py = false := by
  rw [Memory.pixel, pixelAddress_eq, read_clearFrameBuffer h (by omega)]
  exact BitVec.getLsbD_zero

/-- Settles O32: clearing writes 256 zero bytes, and nothing else of the state is written. -/
theorem clearZeroesFrameBuffer : Obligations.ClearZeroesFrameBuffer := by
  unfold Obligations.ClearZeroesFrameBuffer
  intro s hmem
  refine ⟨_, exec_cls s, fun k hk => ?_, fun px py hx hy => ?_, fun a ha => ?_, frame_mem s _⟩ <;> dsimp only
  · exact read_clearFrameBuffer hmem hk
  · exact pixel_clearFrameBuffer hmem hx hy
  · exact read_clearFrameBuffer_outside s.mem ha

/-- Every bit of a byte of the frame buffer is a pixel of the display, so the pixels and the other bytes are all of
memory (R180). -/
theorem Memory.read_eq_of_pixels {m m' : Memory} (houtside : ∀ a, a < 0xF00 ∨ 0x1000 ≤ a → m.read a = m'.read a)
    (hpixels : ∀ px py, px < 64 → py < 32 → m.pixel px py = m'.pixel px py) (a : Nat) : m.read a = m'.read a := by
  by_cases ha : a < 0xF00 ∨ 0x1000 ≤ a
  · exact houtside a ha
  · apply BitVec.eq_of_getLsbD_eq
    intro k hk
    have hpixel := hpixels (8 * ((a - 0xF00) % 8) + (7 - k)) ((a - 0xF00) / 8) (by omega) (by omega)
    have haddr : pixelAddress (8 * ((a - 0xF00) % 8) + (7 - k)) ((a - 0xF00) / 8) = a := by
      rw [pixelAddress_eq]
      omega
    have hbit : pixelBit (8 * ((a - 0xF00) % 8) + (7 - k)) = k := by
      rw [pixelBit]
      omega
    rwa [Memory.pixel, Memory.pixel, haddr, hbit] at hpixel

/-! ### The bytes a sprite may write (R182) -/

/-- Drawing one sprite bit leaves alone every byte that holds no display pixel it lands on. -/
theorem read_drawPixel_other {edge : SpriteEdge} {u v a : Nat} (q : Canvas)
    (ha : ∀ px py, px < 64 → py < 32 → landsOn edge u v px py = true → a ≠ pixelAddress px py) :
    (drawPixel edge u v q).1.read a = q.1.read a := by
  rcases drawPixel_cases edge u v q with ⟨-, e⟩ | ⟨px, py, hx, hy, hpos, e⟩ <;> rw [e]
  have hlands := ((pixelPos_eq_some_iff edge u v px py).1 hpos).1
  exact Memory.read_togglePixel_other q.1 (ha px py hx hy hlands)

/-- Drawing the columns `c .. c + count - 1` keeps whatever drawing each one of them keeps. -/
theorem drawColumns_keeps_within {P : Canvas → Prop} {edge : SpriteEdge} {bx v : Nat} (b : Byte) {count c : Nat}
    {q : Canvas} (hP : ∀ j q, c ≤ j → j < c + count → P q → P (drawPixel edge (bx + j) v q)) (h : P q) :
    P (drawColumns edge b bx v count c q) := by
  induction count generalizing c q with
  | zero => exact h
  | succ count ih =>
    refine ih (fun j q hcj hj => hP j q (by omega) (by omega)) ?_
    split
    · exact hP c q le_rfl (by omega) h
    · exact h

/-- Drawing the rows `r .. r + count - 1` keeps whatever drawing each pixel of them keeps. -/
theorem drawRows_keeps_within {P : Canvas → Prop} {edge : SpriteEdge} {bx byy : Nat} (base : Nat) {count r : Nat}
    {q : Canvas}
    (hP : ∀ k j q, r ≤ k → k < r + count → j < 8 → P q → P (drawPixel edge (bx + j) (byy + k) q)) (h : P q) :
    P (drawRows edge base bx byy count r q) := by
  induction count generalizing r q with
  | zero => exact h
  | succ count ih =>
    refine ih (fun k j q hrk hk => hP k j q (by omega) (by omega)) ?_
    exact drawColumns_keeps_within _ (fun j q _ hj => hP r j q le_rfl (by omega) (by omega)) h

/-! ### What DRW does (R182) -/

/-- Memory and the collision after DRW: the rows drawn on the memory of `s`. -/
def drawnCanvas (x y : Reg) (n : Nat) (s : State) : Canvas :=
  drawRows s.params.spriteEdge s.i.toNat (s.v x).toNat (s.v y).toNat n 0 (s.mem, false)

/-- The state after DRW: the memory of the drawn canvas, and its collision in VF. -/
def drawnState (x y : Reg) (n : Nat) (s : State) : State :=
  State.setV { s with mem := (drawnCanvas x y n s).1 } vf (flagByte (drawnCanvas x y n s).2)

theorem exec_drw_of_fits (x y : Reg) {n : Nat} {s : State} (h : s.i.toNat + n < 4096) :
    exec (.drw x y n) s = .next (drawnState x y n s) := if_neg (Nat.not_le.2 h)

theorem frame_drawnState (x y : Reg) (n : Nat) (s : State) : Frame [.mem] [15] s (drawnState x y n s) :=
  (frame_mem s _).trans (frame_setV _ vf _)

@[simp] theorem drawnState_mem (x y : Reg) (n : Nat) (s : State) :
    (drawnState x y n s).mem = (drawnCanvas x y n s).1 := rfl

theorem drawnState_vf (x y : Reg) (n : Nat) (s : State) :
    (drawnState x y n s).v 15 = flagByte (drawnCanvas x y n s).2 := State.v_setV_same _ _ _

/-- VF is 1 exactly after a collision (R32, R182). -/
theorem drawnState_vf_eq_one_iff (x y : Reg) (n : Nat) (s : State) :
    (drawnState x y n s).v 15 = 1 ↔ (drawnCanvas x y n s).2 = true := by
  rw [drawnState_vf]
  cases (drawnCanvas x y n s).2 <;> decide

theorem wf_drawnCanvas (x y : Reg) (n : Nat) {s : State} (h : s.mem.wf = true) :
    (drawnCanvas x y n s).1.wf = true := wf_drawRows _ _ _ _ _ _ h

theorem read_drawnCanvas_outside (x y : Reg) (n : Nat) (s : State) {a : Nat} (ha : a < 0xF00 ∨ 0x1000 ≤ a) :
    (drawnCanvas x y n s).1.read a = s.mem.read a := read_drawRows_outside _ _ _ _ _ _ _ ha

/-- Settles O33: each drawn bit writes the byte of a pixel it lands on and no other. -/
theorem drawCompletesOrFaults : Obligations.DrawCompletesOrFaults := by
  unfold Obligations.DrawCompletesOrFaults
  intro x y n s
  refine ⟨fun hfit => ?_, fun hout => faultsWith_of_eq (if_pos hout)⟩
  refine ⟨_, exec_drw_of_fits x y hfit, ?_, fun a ha => ?_, fun a ha => read_drawnCanvas_outside x y n s ha,
    frame_drawnState x y n s⟩
  · rw [drawnState_vf]
    exact flagByte_eq _
  · refine drawRows_keeps_within (P := fun q => q.1.read a = s.mem.read a) _ (fun k j q _ hk hj hq => ?_) rfl
    rw [read_drawPixel_other q fun px py hx hy => ha k j px py (by omega) hj hx hy]
    exact hq

/-! ### A sprite row by row (R182) -/

/-- One row more is drawn on the canvas of the rows before it, from the byte read there. -/
theorem drawnCanvas_succ (x y : Reg) (n : Nat) (s : State) : drawnCanvas x y (n + 1) s =
    drawColumns s.params.spriteEdge ((drawnCanvas x y n s).1.read (s.i.toNat + n)) (s.v x).toNat
      ((s.v y).toNat + n) 8 0 (drawnCanvas x y n s) := by
  rw [drawnCanvas, drawRows_succ, Nat.zero_add]
  rfl

theorem pixel_drawnCanvas_succ (x y : Reg) (n : Nat) {s : State} (h : s.mem.wf = true) {px py : Nat} (hx : px < 64)
    (hy : py < 32) : (drawnCanvas x y (n + 1) s).1.pixel px py = ((drawnCanvas x y n s).1.pixel px py ^^
      rowBit s.params.spriteEdge ((drawnCanvas x y n s).1.read (s.i.toNat + n)) (s.v x).toNat ((s.v y).toNat + n)
        px py) := by
  rw [drawnCanvas_succ]
  exact pixel_drawRow _ _ _ _ (wf_drawnCanvas x y n h) hx hy

theorem hit_drawnCanvas_succ (x y : Reg) (n : Nat) {s : State} (h : s.mem.wf = true) :
    (drawnCanvas x y (n + 1) s).2 = true ↔ (drawnCanvas x y n s).2 = true ∨ ∃ px py, px < 64 ∧ py < 32 ∧
      (drawnCanvas x y n s).1.pixel px py = true ∧
      rowBit s.params.spriteEdge ((drawnCanvas x y n s).1.read (s.i.toNat + n)) (s.v x).toNat ((s.v y).toNat + n)
        px py = true := by
  rw [drawnCanvas_succ]
  exact hit_drawRow _ _ _ _ (wf_drawnCanvas x y n h)

/-- Settles O34: no rows leave the canvas as it is, and one row more is `drawnCanvas_succ`. -/
theorem drawIsRowByRow : Obligations.DrawIsRowByRow := by
  unfold Obligations.DrawIsRowByRow
  intro x y n s hmem _ hfit
  refine ⟨⟨drawnState x y 0 s, exec_drw_of_fits x y (by omega), drawnState_vf x y 0 s, fun a => rfl⟩, ?_⟩
  refine ⟨drawnState x y n s, drawnState x y (n + 1) s, exec_drw_of_fits x y (by omega), exec_drw_of_fits x y hfit,
    fun px py hx hy => pixel_drawnCanvas_succ x y n hmem hx hy, ?_⟩
  rw [drawnState_vf_eq_one_iff, drawnState_vf_eq_one_iff]
  exact hit_drawnCanvas_succ x y n hmem

/-! ### A sprite as a whole (R182 to R184) -/

/-- Some column of a row that lands on the pixel. -/
theorem exists_landsOn_of_rowBit {edge : SpriteEdge} {b : Byte} {bx v px py : Nat}
    (h : rowBit edge b bx v px py = true) : ∃ c, c < 8 ∧ landsOn edge (bx + c) v px py = true := by
  obtain ⟨c, -, hc, -, hlands⟩ := (columnsHit_eight edge b bx v px py).2 h
  exact ⟨c, by omega, hlands⟩

/-- Two rows within the height of the display land on different pixels. -/
theorem landsOn_row_unique {edge : SpriteEdge} {u u' byy r r' px py : Nat}
    (h : landsOn edge u (byy + r) px py = true) (h' : landsOn edge u' (byy + r') px py = true) (hr : r < r' + 32)
    (hr' : r' < r + 32) : r = r' := by
  cases edge <;> simp only [landsOn, decide_eq_true_eq] at h h' <;> omega

theorem spriteBit_succ (s : State) (x y : Reg) (n px py : Nat) : spriteBit s x y (n + 1) px py =
    (spriteBit s x y n px py || rowBit s.params.spriteEdge (s.mem.read (s.i.toNat + n)) (s.v x).toNat
      ((s.v y).toNat + n) px py) := by
  simp [spriteBit, List.range_succ]

/-- A pixel that row `n` lands on is one that no row before it lands on: the sprite is lower than the display. -/
theorem spriteBit_eq_false_of_rowBit {s : State} {x y : Reg} {n px py : Nat} {b : Byte} (hn : n < 32)
    (h : rowBit s.params.spriteEdge b (s.v x).toNat ((s.v y).toNat + n) px py = true) :
    spriteBit s x y n px py = false := by
  rw [← Bool.not_eq_true]
  intro hsprite
  obtain ⟨r, hr, hrow⟩ := List.any_eq_true.1 hsprite
  obtain ⟨c, -, hlands⟩ := exists_landsOn_of_rowBit h
  obtain ⟨c', -, hlands'⟩ := exists_landsOn_of_rowBit hrow
  have hlt : r < n := List.mem_range.1 hr
  have := landsOn_row_unique hlands hlands' (by omega) (by omega)
  omega

/-- A row whose source byte lies below the frame buffer is read unchanged by the rows before it. -/
theorem read_source (x y : Reg) {n : Nat} {s : State} (h : s.i.toNat + (n + 1) ≤ 0xF00) :
    (drawnCanvas x y n s).1.read (s.i.toNat + n) = s.mem.read (s.i.toNat + n) :=
  read_drawnCanvas_outside x y n s (Or.inl (by omega))

/-- A sprite with its source below the frame buffer inverts exactly the pixels a set bit of it lands on. -/
theorem pixel_drawnCanvas (x y : Reg) {n : Nat} {s : State} (h : s.mem.wf = true) (hn : n ≤ 32)
    (hsource : s.i.toNat + n ≤ 0xF00) {px py : Nat} (hx : px < 64) (hy : py < 32) :
    (drawnCanvas x y n s).1.pixel px py = (s.mem.pixel px py ^^ spriteBit s x y n px py) := by
  induction n with
  | zero => exact (Bool.xor_false _).symm
  | succ n ih =>
    rw [pixel_drawnCanvas_succ x y n h hx hy, read_source x y hsource, spriteBit_succ,
      ih (by omega) (by omega), Bool.xor_assoc]
    congr 1
    cases hrow : rowBit s.params.spriteEdge (s.mem.read (s.i.toNat + n)) (s.v x).toNat ((s.v y).toNat + n) px py
    · rw [Bool.xor_false, Bool.or_false]
    · rw [spriteBit_eq_false_of_rowBit (by omega) hrow]
      rfl

/-- A sprite with its source below the frame buffer collides exactly when a set bit of it lands on a pixel that was set
before. -/
theorem hit_drawnCanvas (x y : Reg) {n : Nat} {s : State} (h : s.mem.wf = true) (hn : n ≤ 32)
    (hsource : s.i.toNat + n ≤ 0xF00) : (drawnCanvas x y n s).2 = true ↔
      ∃ px py, px < 64 ∧ py < 32 ∧ s.mem.pixel px py = true ∧ spriteBit s x y n px py = true := by
  induction n with
  | zero =>
    constructor
    · intro hhit
      cases hhit
    · rintro ⟨px, py, -, -, -, hsprite⟩
      cases hsprite
  | succ n ih =>
    rw [hit_drawnCanvas_succ x y n h, ih (by omega) (by omega), read_source x y hsource]
    simp only [spriteBit_succ, Bool.or_eq_true]
    constructor
    · rintro (⟨px, py, hx, hy, hset, hsprite⟩ | ⟨px, py, hx, hy, hset, hrow⟩)
      · exact ⟨px, py, hx, hy, hset, Or.inl hsprite⟩
      · rw [pixel_drawnCanvas x y h (by omega) (by omega) hx hy, spriteBit_eq_false_of_rowBit (by omega) hrow,
          Bool.xor_false] at hset
        exact ⟨px, py, hx, hy, hset, Or.inr hrow⟩
    · rintro ⟨px, py, hx, hy, hset, hsprite | hrow⟩
      · exact Or.inl ⟨px, py, hx, hy, hset, hsprite⟩
      · refine Or.inr ⟨px, py, hx, hy, ?_, hrow⟩
        rw [pixel_drawnCanvas x y h (by omega) (by omega) hx hy, spriteBit_eq_false_of_rowBit (by omega) hrow,
          Bool.xor_false]
        exact hset

/-- Settles O35, from what the drawn canvas holds after all rows. -/
theorem drawXorsWholeSprite : Obligations.DrawXorsWholeSprite := by
  unfold Obligations.DrawXorsWholeSprite
  intro x y n s hmem hn hsource
  refine ⟨_, exec_drw_of_fits x y (by omega), fun px py hx hy => ?_, ?_⟩
  · exact pixel_drawnCanvas x y hmem (by omega) hsource hx hy
  · rw [drawnState_vf_eq_one_iff]
    exact hit_drawnCanvas x y hmem (by omega) hsource

/-- With X and Y not F the next draw of the same sprite has the same coordinates and the same source bytes. -/
theorem spriteBit_drawnState {x y : Reg} {n : Nat} {s : State} (hx : x ≠ 15) (hy : y ≠ 15)
    (hsource : s.i.toNat + n ≤ 0xF00) (px py : Nat) :
    spriteBit (drawnState x y n s) x y n px py = spriteBit s x y n px py := by
  obtain ⟨hregs, hparts, hparams, -⟩ := frame_drawnState x y n s
  have hi : (drawnState x y n s).i = s.i := hparts .i (by simp)
  rw [spriteBit, spriteBit, hregs x (by simpa using hx), hregs y (by simpa using hy), hparams, hi]
  rw [Bool.eq_iff_iff, List.any_eq_true, List.any_eq_true]
  refine exists_congr fun r => and_congr_right fun hr => ?_
  have hlt : r < n := List.mem_range.1 hr
  rw [drawnState_mem, read_drawnCanvas_outside x y n s (Or.inl (by omega))]

/-- The second draw of a sprite inverts the pixels of the first back, so memory is what it was (R184). -/
theorem mem_drawnState_twice {x y : Reg} {n : Nat} {s : State} (hmem : s.mem.wf = true) (hn : n ≤ 32)
    (hsource : s.i.toNat + n ≤ 0xF00) (hx : x ≠ 15) (hy : y ≠ 15) :
    (drawnState x y n (drawnState x y n s)).mem = s.mem := by
  have hwf : (drawnState x y n s).mem.wf = true := wf_drawnCanvas x y n hmem
  refine Memory.ext_of_read (wf_drawnCanvas x y n hwf) hmem (Memory.read_eq_of_pixels (fun a ha => ?_) ?_)
  · rw [drawnState_mem, read_drawnCanvas_outside x y n _ ha]
    exact read_drawnCanvas_outside x y n s ha
  · intro px py hpx hpy
    calc (drawnState x y n (drawnState x y n s)).mem.pixel px py
      _ = ((drawnState x y n s).mem.pixel px py ^^ spriteBit (drawnState x y n s) x y n px py) :=
        pixel_drawnCanvas x y hwf hn hsource hpx hpy
      _ = ((s.mem.pixel px py ^^ spriteBit s x y n px py) ^^ spriteBit s x y n px py) := by
        rw [spriteBit_drawnState hx hy hsource, drawnState_mem, pixel_drawnCanvas x y hmem hn hsource hpx hpy]
      _ = s.mem.pixel px py := by rw [Bool.xor_assoc, Bool.xor_self, Bool.xor_false]

/-- The second draw of a sprite collides exactly where the first one set a pixel (R184). -/
theorem hit_drawnState_twice {x y : Reg} {n : Nat} {s : State} (hmem : s.mem.wf = true) (hn : n ≤ 32)
    (hsource : s.i.toNat + n ≤ 0xF00) (hx : x ≠ 15) (hy : y ≠ 15) :
    (drawnCanvas x y n (drawnState x y n s)).2 = true ↔
      ∃ px py, px < 64 ∧ py < 32 ∧ s.mem.pixel px py = false ∧ spriteBit s x y n px py = true := by
  have hwf : (drawnState x y n s).mem.wf = true := wf_drawnCanvas x y n hmem
  rw [hit_drawnCanvas x y hwf hn hsource]
  refine exists_congr fun px => exists_congr fun py => and_congr_right fun hpx => and_congr_right fun hpy => ?_
  rw [spriteBit_drawnState hx hy hsource, drawnState_mem, pixel_drawnCanvas x y hmem hn hsource hpx hpy]
  refine and_congr_left fun hsprite => ?_
  rw [hsprite, Bool.xor_true, Bool.not_eq_true']

/-- Settles O36: both draws complete, since they have the same I. -/
theorem doubleDrawRestoresDisplay : Obligations.DoubleDrawRestoresDisplay := by
  unfold Obligations.DoubleDrawRestoresDisplay
  intro x y n s hmem hn hsource hx hy
  have hfit : s.i.toNat + n < 4096 := by omega
  refine ⟨drawnState x y n s, drawnState x y n (drawnState x y n s), exec_drw_of_fits x y hfit,
    exec_drw_of_fits x y hfit, mem_drawnState_twice hmem (by omega) hsource hx hy, ?_⟩
  rw [drawnState_vf_eq_one_iff]
  exact hit_drawnState_twice hmem (by omega) hsource hx hy

end Sys2Proof.Machine
end
